-- ==== Sys2Proof/Word.lean ====
section
/-! DEFINITION. The machine word: every register value, operand and result of the CORE is an unsigned 64-bit number
(spec/00_scope.md R2, R6, R7). -/

namespace Sys2Proof

/-- An unsigned 64-bit value (R7: "Every register value, operand and result is an unsigned integer in [0, 2^64)"). -/
abbrev Word := BitVec 64

/-- One byte of the window as a byte-addressed platform sees it (R38). -/
abbrev Byte := BitVec 8

end Sys2Proof
end

