-- ==== Sys2Proof/Config.lean ====
section
/-! DEFINITION. The implementation parameters of spec/00_scope.md R6 that a definition reads, and the one that is left open
as a constant, WINDOW_BASE (spec/20_memory.md R49). XLEN is the width of `Word`; PRODW is the width of the product in
`mulmod`; the other open parameter, LATENCY, is chosen anew for each command by the schedule that State holds (entry 4). -/

namespace Sys2Proof.Config

/-- WINDOW (R6, R34): the register window's size in bytes. -/
def windowBytes : Nat := 64

/-- PORTW (R6) in bytes: the one access width the port admits (R37). -/
def portBytes : Nat := 8

/-- The last admitted offset (R37). -/
def lastOffset : Int := 0x38

/-- A free value: which 64-byte block of the host's address space the platform gives the window (R49, OPEN; entry 12). -/
opaque windowBlock : Nat

/-- WINDOW_BASE (R49): "left OPEN and aligned to 64 bytes". -/
def windowBase : Nat := windowBytes * windowBlock

end Sys2Proof.Config
end

