-- ==== Sys2Proof/Syntax.lean ====
section
/-! DEFINITION. The commands of the CORE: one constructor per row of spec/opcode_table.json (spec/30_encoding.md R52).
A command has no operand field (R51): its operands are registers with fixed roles (R53). -/

namespace Sys2Proof

/-- A command of the CORE (R1, R52). -/
inductive Instr where
  /-- MULMOD, `(a * b) mod m` (R71). -/
  | mulmod
  /-- POWMOD, `a ^ p mod m` by binary exponentiation (R75). -/
  | powmod
  /-- SPRP, the strong witness test of candidate n with witness a (R82). -/
  | sprp
  deriving DecidableEq, Repr

end Sys2Proof
end

