-- ==== Sys2Proof/WellFormed.lean ====
section
/-! DEFINITION. Which command words are well formed (spec/30_encoding.md R51, R55): the reserved field is 0 and the opcode
is one of the three. A command as syntax has no field that could be out of range (R51), so the checks are about the raw
fields of a word. -/

namespace Sys2Proof

/-- A command word taken apart into the two fields of R51, before any check. -/
structure CommandWord where
  /-- Bits 7:0. -/
  opcode : BitVec 8
  /-- Bits 63:8. -/
  rsvd : BitVec 56
  deriving DecidableEq, Repr

/-- R51, R55: "reserved; must be 0". -/
def CommandWord.reservedClear (c : CommandWord) : Bool := c.rsvd == 0

/-- R52, R55: the opcode is in the opcode map. -/
def CommandWord.opcodeKnown (c : CommandWord) : Bool := c.opcode == 0x01 || c.opcode == 0x02 || c.opcode == 0x03

/-- A legal command word (R55). -/
def CommandWord.wf (c : CommandWord) : Bool := c.reservedClear && c.opcodeKnown

/-- The fields of a command's word, from the OPCODE column of R52. -/
def Instr.fields : Instr → CommandWord
  | .mulmod => { opcode := 0x01, rsvd := 0 }
  | .powmod => { opcode := 0x02, rsvd := 0 }
  | .sprp => { opcode := 0x03, rsvd := 0 }

/-- A command is well formed when its word is. -/
def Instr.wf (i : Instr) : Bool := i.fields.wf

end Sys2Proof
end

