-- ==== Sys2Proof/Decode.lean ====
section
/-! DEFINITION. Decoding and encoding of command words (spec/30_encoding.md R50 to R57), the opcode table as data, and the
little-endian byte view of a word (spec/20_memory.md R38). -/

namespace Sys2Proof

/-- Why a word is illegal (R55), or why bytes are no command word. On the CORE both kinds of illegal word give the same
ILLEGAL_CMD (R93). -/
inductive Illegal where
  /-- `w[63:8] != 0`. -/
  | reservedBitsSet
  /-- `w[7:0]` is not in {1, 2, 3}. -/
  | unknownOpcode
  /-- Fewer than the eight bytes of a command word (R50: every command is exactly one word). -/
  | tooShort
  deriving DecidableEq, Repr

/-- What the decoder answers: R57's {MULMOD, POWMOD, SPRP, ILLEGAL}, with the reason of ILLEGAL. -/
inductive Decoded where
  | command (i : Instr)
  | illegal (why : Illegal)
  deriving DecidableEq, Repr

/-- The field of `w` of `len` bits from bit `lo` up (R7's `v[hi:lo]`). -/
def bitField (lo len : Nat) (w : Word) : BitVec len := w.extractLsb' lo len

/-- A word taken apart into the fields of R51. -/
def CommandWord.ofWord (w : Word) : CommandWord := { opcode := bitField 0 8 w, rsvd := bitField 8 56 w }

/-- The opcode value of a command (R52). -/
def Instr.opcode (i : Instr) : BitVec 8 := i.fields.opcode

/-- The command of an opcode value (R52), if it is listed. -/
def Instr.ofOpcode (o : BitVec 8) : Option Instr :=
  if o = 0x01 then some .mulmod
  else if o = 0x02 then some .powmod
  else if o = 0x03 then some .sprp
  else none

/-- The decoder, total on all 2^64 words (R55, R57). -/
def decode (w : Word) : Decoded :=
  let c := CommandWord.ofWord w
  if c.reservedClear then
    match Instr.ofOpcode c.opcode with
    | some i => .command i
    | none => .illegal .unknownOpcode
  else .illegal .reservedBitsSet

/-- The command word of a command: the "command word (hex)" column of R52. -/
def encode : Instr → Word
  | .mulmod => 0x0000000000000001
  | .powmod => 0x0000000000000002
  | .sprp => 0x0000000000000003

/-- One row of spec/opcode_table.json. -/
structure OpcodeRow where
  instr : Instr
  mask : Word
  pattern : Word
  deriving DecidableEq, Repr

/-- spec/opcode_table.json (R57: mask all ones, match equal to the command word). -/
def opcodeTable : List OpcodeRow :=
  [ { instr := .mulmod, mask := 0xFFFFFFFFFFFFFFFF, pattern := 0x0000000000000001 },
    { instr := .powmod, mask := 0xFFFFFFFFFFFFFFFF, pattern := 0x0000000000000002 },
    { instr := .sprp, mask := 0xFFFFFFFFFFFFFFFF, pattern := 0x0000000000000003 } ]

/-- A word matches a row. -/
def OpcodeRow.hits (r : OpcodeRow) (w : Word) : Bool := (w &&& r.mask) == r.pattern

/-- Byte k of a value: bits 8k+7:8k (R38). -/
def byteOf (w : Word) (k : Nat) : Byte := bitField (8 * k) 8 w

/-- The eight bytes of a word, byte 0 first (R38, little-endian). -/
def bytesOf (w : Word) : List Byte := (List.range 8).map (byteOf w)

/-- Eight bytes, byte 0 first, put together into a word (R38). -/
def wordOfBytes (b0 b1 b2 b3 b4 b5 b6 b7 : Byte) : Word :=
  b7 ++ b6 ++ b5 ++ b4 ++ b3 ++ b2 ++ b1 ++ b0

/-- A decoded command with the bytes after it, or why there is none. -/
inductive BytesDecoded where
  | command (i : Instr) (rest : List Byte)
  | illegal (why : Illegal)
  deriving DecidableEq, Repr

/-- The decoder on bytes as a byte-addressed platform lays a command word out (R38, R50). -/
def decodeBytes : List Byte → BytesDecoded
  | b0 :: b1 :: b2 :: b3 :: b4 :: b5 :: b6 :: b7 :: rest =>
    match decode (wordOfBytes b0 b1 b2 b3 b4 b5 b6 b7) with
    | .command i => .command i rest
    | .illegal why => .illegal why
  | _ => .illegal .tooShort

/-- The bytes of a command's word (R38). -/
def encodeBytes (i : Instr) : List Byte := bytesOf (encode i)

/-- The command the decoder reads from a command word given as a number of `nbits` bits, numbered as
spec/opcode_table.json numbers them; bits above `nbits` are 0. -/
def decodeTableWord (nbits w : Nat) : Option Instr :=
  match decode (BitVec.ofNat 64 (w % 2 ^ nbits)) with
  | .command i => some i
  | .illegal _ => none

end Sys2Proof
end

