-- ==== Sys2Proof/Machine/State.lean ====
section
/-! DEFINITION. The state of the CORE as spec/10_state.md R13 lists it, with the four fields of the model's own that hold
the schedule, the level of reset, the bus answer and the record of R110; and why a step can stop. -/

namespace Sys2Proof.Machine

/-- The errors a completion can record (spec/60_exceptions.md R92, causes 1 to 3). -/
inductive ErrorCause where
  /-- ILLEGAL_CMD (R93). -/
  | illegalCmd
  /-- MODULUS_ZERO (R94). -/
  | modulusZero
  /-- SPRP_DOMAIN (R95). -/
  | sprpDomain
  deriving DecidableEq, Repr

/-- How a command ends (spec/40_command_dispatch.md R63): with a value, or with an error and no value. -/
inductive Completion where
  /-- `complete(0, value)`. -/
  | success (value : Word)
  /-- `complete(cause, none)`. -/
  | error (cause : ErrorCause)
  deriving DecidableEq, Repr

/-- A host access of the register window (spec/20_memory.md R37): `bytes` bytes at byte offset `off` from the window
base. Any offset and any width can be asked for; the port admits few. The data of a write of another width than 8 bytes
is never looked at, so it is held as a word (entry 10). -/
inductive Access where
  | read (off : Int) (bytes : Nat)
  | write (off : Int) (bytes : Nat) (data : Word)
  deriving DecidableEq, Repr

/-- One event of an execution: R43's steps, the engine's internal steps of R66, and the platform's reset (R111). -/
inductive Input where
  /-- The host issues an access. -/
  | host (a : Access)
  /-- An internal engine step, with nothing visible (R26, R66). -/
  | engineWork
  /-- The engine's completion step (R65). -/
  | engineComplete
  /-- The platform asserts reset (R111). -/
  | resetAssert
  /-- The platform releases reset (R113). -/
  | resetRelease
  deriving DecidableEq, Repr

/-- The answer of the bus to the latest host access. -/
inductive Response where
  /-- No access has been answered yet. -/
  | none
  /-- The value of a read (R40). -/
  | data (v : Word)
  /-- A write was taken (R41). -/
  | written
  /-- `raise BusError(off)` (R37, R97). -/
  | busError (off : Int)
  deriving DecidableEq, Repr

/-- A fault of the host program (R110): an error completion, an overrun or a bus error. -/
inductive HostFault where
  | errorCompletion (cause : ErrorCause)
  | overrun
  | busError (off : Int)
  deriving DecidableEq, Repr

/-- The eight 64-bit places of the register window (R35). -/
inductive Slot where
  | opa | opb | opm | cmd | status | result | reserved30 | reserved38
  deriving DecidableEq, Repr

/-- The state. The fields down to `lm` are the CORE's (R13); the last four are the model's own. -/
structure State where
  /-- OPA (R14). -/
  opa : Word
  /-- OPB (R15). -/
  opb : Word
  /-- OPM (R16). -/
  opm : Word
  /-- RESULT (R24). -/
  result : Word
  /-- STATUS.BUSY (R19). -/
  busy : Bool
  /-- STATUS.DONE (R20). -/
  done : Bool
  /-- STATUS.CAUSE (R21). -/
  cause : BitVec 4
  /-- STATUS.OVERRUN (R22). -/
  overrun : Bool
  /-- LOP, the latched opcode (R25; its width is the OPCODE field's, entry 18). -/
  lop : BitVec 8
  /-- LA (R25). -/
  la : Word
  /-- LB (R25). -/
  lb : Word
  /-- LM (R25). -/
  lm : Word
  /-- The events still to come, oldest first (R43; entry 2). -/
  inputs : List Input
  /-- Reset is being asserted (R111; entry 15). -/
  inReset : Bool
  /-- The latest bus answer (entry 14). -/
  response : Response
  /-- The faults of the host program, latest first (R110; entry 6). -/
  hostFaults : List HostFault
  deriving DecidableEq, Repr

/-- The CORE right after reset (R32, R111), with reset released and no event waiting. The four latches are "unspecified"
there; 0 is this model's choice (entry 1). -/
def State.reset : State where
  opa := 0
  opb := 0
  opm := 0
  result := 0
  busy := false
  done := false
  cause := 0
  overrun := false
  lop := 0
  la := 0
  lb := 0
  lm := 0
  inputs := []
  inReset := false
  response := .none
  hostFaults := []

/-- Why the machine stops. -/
inductive Fault where
  /-- Raised by `hostAccess`: a host access while reset is asserted. R111: "No host access is admitted while reset is
  asserted"; I17 (spec/93_implementation_defined.md): "stuck". Safe: the execution is one the spec does not admit. -/
  | hostAccessInReset
  /-- Raised by `engineComplete`: the latches of a command in flight are outside R27, where the result functions are
  undefined. No run from reset reaches it (R65: "The step never fails"). Safe. -/
  | latchesOutsideDomain
  deriving DecidableEq, Repr

/-- Why an instruction has no meaning. -/
inductive Refusal where
  /-- Raised by an arm of `exec` whose instruction has no meaning yet (none in this model). Safe. -/
  | notModelled (mnemonic : String)
  deriving DecidableEq, Repr

end Sys2Proof.Machine
end

