-- ==== Sys2Proof/Machine/Flags.lean ====
section
/-! DEFINITION. STATUS: how its word is put together, what a write to it does, and the cause codes
(spec/10_state.md R18 to R23, spec/20_memory.md R40, R41, spec/60_exceptions.md R92). The CORE has no other flags (R29). -/

namespace Sys2Proof.Machine

/-- The CAUSE code of an error (R92). -/
def ErrorCause.code : ErrorCause → BitVec 4
  | .illegalCmd => 1
  | .modulusZero => 2
  | .sprpDomain => 3

/-- The CAUSE code a completion records (R63, R92): 0 for success. -/
def Completion.code : Completion → BitVec 4
  | .success _ => 0
  | .error c => c.code

/-- x[STATUS], "assembled as {0[63:9], OVERRUN, CAUSE[3:0], 0[1:0], DONE, BUSY}" (R40). -/
def statusWord (s : State) : Word :=
  0#55 ++ BitVec.ofBool s.overrun ++ s.cause ++ 0#2 ++ BitVec.ofBool s.done ++ BitVec.ofBool s.busy

/-- A write of `v` to STATUS clears OVERRUN when bit 8 of `v` is 1; all other bits are ignored (R22, R41). -/
def overrunAfterWrite (v : Word) (overrun : Bool) : Bool := if v.getLsbD 8 then false else overrun

end Sys2Proof.Machine
end

