-- ==== Sys2Proof/Machine/Operands.lean ====
section
/-! DEFINITION. The operand roles (spec/30_encoding.md R53, R54) and the operand checks of the CMD write
(spec/40_command_dispatch.md R62, spec/60_exceptions.md R94, R95, spec/42_strong_witness.md R83). -/

namespace Sys2Proof.Machine

/-- R94: MULMOD and POWMOD with modulus 0 take MODULUS_ZERO. -/
def modulusCheck (m : Word) : Option ErrorCause := if m = 0 then some .modulusZero else none

/-- R83: n odd, n > 3, a < n. -/
def inSprpDomain (n a : Word) : Bool := n % 2 == 1 && 3 < n && a < n

/-- R95: SPRP outside its domain takes SPRP_DOMAIN. -/
def sprpCheck (n a : Word) : Option ErrorCause := if inSprpDomain n a then none else some .sprpDomain

/-- The operand check of a command (R62, R99 item 3). -/
def operandCheck (i : Instr) (a m : Word) : Option ErrorCause :=
  match i with
  | .mulmod => modulusCheck m
  | .powmod => modulusCheck m
  | .sprp => sprpCheck m a

end Sys2Proof.Machine
end

