-- ==== Sys2Proof/Machine/Ops.lean ====
section
/-! DEFINITION. The named operations over the state that every command and every host access goes through: the bus
answer, the record of R110, completing and accepting a command (spec/40_command_dispatch.md R61 to R64), the register
window's places (spec/20_memory.md R35 to R41) and reset (spec/70_reset_and_hazards.md R111).

The CORE takes no exception and returns from none (spec/60_exceptions.md R91, R100, R101). What stands in that place is the
error completion: `complete` with an error cause. -/

namespace Sys2Proof.Machine

/-! ### Answers and the record of R110 -/

/-- The bus answers the host. -/
def respond (r : Response) (s : State) : State := { s with response := r }

/-- R110: a fault of the host program is recorded and kept. -/
def recordFault (f : HostFault) (s : State) : State := { s with hostFaults := f :: s.hostFaults }

/-- R37, R97: a refused access is answered with BusError and changes no state of the CORE; R110 records it. -/
def busError (off : Int) (s : State) : State := recordFault (.busError off) (respond (.busError off) s)

/-! ### Ending and starting a command -/

/-- The STATUS and RESULT update of R63. -/
def complete (c : Completion) (s : State) : State :=
  match c with
  | .success v => { s with result := v, cause := c.code, busy := false, done := true }
  | .error e => recordFault (.errorCompletion e) { s with cause := c.code, busy := false, done := true }

/-- R64: latch the opcode and the operands and mark the CORE busy. -/
def accept (i : Instr) (s : State) : State :=
  { s with lop := i.opcode, la := s.opa, lb := s.opb, lm := s.opm, busy := true, done := false }

/-- R61: a CMD write while a command is in flight sets OVERRUN and nothing else; R110 records it. -/
def overrunWrite (s : State) : State := recordFault .overrun { s with overrun := true }

/-- The CMD write of a command whose operand check answered `check`, in the order of R62 and R99: overrun, then the
operand check, then accept. -/
def issue (i : Instr) (check : Option ErrorCause) (s : State) : State :=
  if s.busy then overrunWrite s
  else match check with
    | some e => complete (.error e) s
    | none => accept i s

/-! ### The register window -/

/-- R37: an access is admitted when it moves exactly 8 bytes and its offset is a multiple of 8 in 0x00 to 0x38. -/
def admitted (off : Int) (bytes : Nat) : Bool :=
  bytes == Config.portBytes && off % 8 == 0 && 0 ≤ off && off ≤ Config.lastOffset

/-- The byte offset of a place in the window (R35). -/
def Slot.offset : Slot → Int
  | .opa => 0x00
  | .opb => 0x08
  | .opm => 0x10
  | .cmd => 0x18
  | .status => 0x20
  | .result => 0x28
  | .reserved30 => 0x30
  | .reserved38 => 0x38

/-- The place at an offset (R35). -/
def Slot.ofOffset (off : Int) : Option Slot :=
  if off = 0x00 then some .opa
  else if off = 0x08 then some .opb
  else if off = 0x10 then some .opm
  else if off = 0x18 then some .cmd
  else if off = 0x20 then some .status
  else if off = 0x28 then some .result
  else if off = 0x30 then some .reserved30
  else if off = 0x38 then some .reserved38
  else none

/-- The place an access reaches: none when the access is not admitted (R37). -/
def slotAt (off : Int) (bytes : Nat) : Option Slot := if admitted off bytes then Slot.ofOffset off else none

/-- The value a host read of a place returns (R40). -/
def readSlot (r : Slot) (s : State) : Word :=
  match r with
  | .opa => s.opa
  | .opb => s.opb
  | .opm => s.opm
  | .cmd => 0
  | .status => statusWord s
  | .result => s.result
  | .reserved30 => 0
  | .reserved38 => 0

/-- MemWrite(0x00, 8, v) (R41). -/
def setOpa (v : Word) (s : State) : State := { s with opa := v }

/-- MemWrite(0x08, 8, v) (R41). -/
def setOpb (v : Word) (s : State) : State := { s with opb := v }

/-- MemWrite(0x10, 8, v) (R41). -/
def setOpm (v : Word) (s : State) : State := { s with opm := v }

/-- MemWrite(0x20, 8, v) (R22, R41). -/
def writeStatus (v : Word) (s : State) : State := { s with overrun := overrunAfterWrite v s.overrun }

/-! ### Reset -/

/-- R111: reset is asserted; every piece of state takes its reset value and a command in flight is abandoned. The record of
R110 and the events to come are no state of the CORE and stay (entries 6, 15). -/
def assertReset (s : State) : State :=
  { State.reset with inputs := s.inputs, hostFaults := s.hostFaults, inReset := true }

/-- R113: the platform releases reset. -/
def releaseReset (s : State) : State := { s with inReset := false }

end Sys2Proof.Machine
end

