-- ==== Sys2Proof/Machine/ModularArithmetic.lean ====
section
/-! DEFINITION. MULMOD and POWMOD (spec/41_modular_arithmetic.md R70 to R79): the functions, the commands' CMD writes and
their results at completion. -/

namespace Sys2Proof.Machine

/-- R70: the exact 128-bit product reduced modulo m and narrowed to 64 bits. Defined for m >= 1; no rule applies it to
m = 0. -/
def mulmod (a b m : Word) : Word :=
  let p : BitVec 128 := a.setWidth 128 * b.setWidth 128
  let r : BitVec 128 := p % m.setWidth 128
  r.setWidth 64

/-- The loop of R74, at most `fuel` iterations: accumulator `y`, current base `base`, remaining exponent `e`. -/
def powLoop (m : Word) : Nat → Word → Word → Word → Word
  | 0, y, _, _ => y
  | fuel + 1, y, base, e =>
    if e = 0 then y
    else powLoop m fuel (if e.getLsbD 0 then mulmod y base m else y) (mulmod base base m) (e >>> 1)

/-- R74: binary exponentiation. 64 iterations suffice, since the exponent is halved each time (R78). -/
def powmod (a p m : Word) : Word := powLoop m 64 1 a p

/-- The CMD write of MULMOD (R71): MODULUS_ZERO when OPM is 0, else accept; an overrun while busy (R61). -/
def execMulmod (s : State) : Host.Outcome State Fault Refusal := .next (issue .mulmod (modulusCheck s.opm) s)

/-- The CMD write of POWMOD (R75): MODULUS_ZERO when OPM is 0, else accept; an overrun while busy (R61). -/
def execPowmod (s : State) : Host.Outcome State Fault Refusal := .next (issue .powmod (modulusCheck s.opm) s)

/-- MULMOD's value at completion (R71): `mulmod(LA, LB, LM)`. -/
def mulmodResult (s : State) : Word := mulmod s.la s.lb s.lm

/-- POWMOD's value at completion (R75): `powmod(LA, LB, LM)`, LB the exponent. -/
def powmodResult (s : State) : Word := powmod s.la s.lb s.lm

end Sys2Proof.Machine
end

