-- ==== Sys2Proof/Machine/StrongWitness.lean ====
section
/-! DEFINITION. SPRP, the strong witness comparator (spec/42_strong_witness.md R80 to R90). -/

namespace Sys2Proof.Machine

/-- The number of trailing zero bits of `v`, looking at most at `fuel` bits (R8's `ctz`). -/
def trailingZeros : Nat → Word → Nat
  | 0, _ => 0
  | fuel + 1, v => if v.getLsbD 0 then 0 else trailingZeros fuel (v >>> 1) + 1

/-- `ctz(v)` for v >= 1 (R8). -/
def ctz (v : Word) : Nat := trailingZeros 64 v

/-- The pair `(d, s)` of R80: `n - 1 = d * 2^s` with d odd. -/
def decompose (n : Word) : Word × Nat := ((n - 1) >>> ctz (n - 1), ctz (n - 1))

/-- The squaring loop of R81 and R86, `rounds` rounds left: pass when `ap` is n - 1, else square. -/
def squareLoop (n : Word) : Nat → Word → Bool
  | 0, _ => false
  | rounds + 1, ap => if ap = n - 1 then true else squareLoop n rounds (mulmod ap ap n)

/-- R81: the strong test. True is pass, false is fail. -/
def sprp (n a : Word) : Bool :=
  if a = 0 then true
  else
    let (d, s) := decompose n
    let ap := powmod a d n
    if ap = 1 then true else squareLoop n s ap

/-- R58: the verdict as a word, 1 for pass and 0 for fail. -/
def verdictWord (pass : Bool) : Word := if pass then 1 else 0

/-- The CMD write of SPRP (R82): SPRP_DOMAIN outside the domain, else accept; an overrun while busy (R61). -/
def execSprp (s : State) : Host.Outcome State Fault Refusal := .next (issue .sprp (sprpCheck s.opm s.opa) s)

/-- SPRP's value at completion (R82): `if sprp(LM, LA) then 1 else 0`; LB is not read (R53). -/
def sprpResult (s : State) : Word := verdictWord (sprp s.lm s.la)

end Sys2Proof.Machine
end

