-- ==== Sys2Proof/Machine/Engine.lean ====
section
/-! DEFINITION. The engine (spec/40_command_dispatch.md R65 to R67): the completion of the command in flight. -/

namespace Sys2Proof.Machine

/-- R67: the value a command's completion writes, from the latches alone. -/
def resultOf (i : Instr) (s : State) : Word :=
  match i with
  | .mulmod => mulmodResult s
  | .powmod => powmodResult s
  | .sprp => sprpResult s

/-- R65: `complete(0, exec(LOP, LA, LB, LM))`. The result functions are defined on the latches R27 allows; outside them, in
states no run reaches, the step has no meaning and stops by name (entry 8). -/
def engineComplete (s : State) : Host.Outcome State Fault Refusal :=
  match Instr.ofOpcode s.lop with
  | none => .fault .latchesOutsideDomain
  | some i =>
    if (operandCheck i s.la s.lm).isNone then .next (complete (.success (resultOf i s)) s)
    else .fault .latchesOutsideDomain

/-- The engine's turn: its completion step is enabled exactly when BUSY = 1 (R65); otherwise nothing happens (R43: "never
while BUSY = 0"; entry 5). -/
def engineTurn (s : State) : Host.Outcome State Fault Refusal :=
  if s.busy then engineComplete s else .next s

end Sys2Proof.Machine
end

