-- ==== Sys2Proof/Machine/Dispatch.lean ====
section
/-! DEFINITION. What a CMD write of each command does once the port has admitted it and the word has been decoded
(spec/40_command_dispatch.md R61, R62): one arm per command. -/

namespace Sys2Proof.Machine

def exec (i : Instr) (s : State) : Host.Outcome State Fault Refusal :=
  match i with
  | .mulmod => Sys2Proof.Machine.execMulmod s
  | .powmod => Sys2Proof.Machine.execPowmod s
  | .sprp => Sys2Proof.Machine.execSprp s

end Sys2Proof.Machine
end

