-- ==== Sys2Proof/Machine/HostPort.lean ====
section
/-! DEFINITION. The host port (spec/20_memory.md R37 to R41): command words written to CMD
(spec/40_command_dispatch.md R61, R62), admitted reads and writes, and accesses that are refused. -/

namespace Sys2Proof.Machine

/-- `command_write(w)` (R61, R62): while busy an overrun, the word not decoded; else an illegal word completes with
ILLEGAL_CMD and a command is carried on by its own meaning. -/
def commandWrite (w : Word) (s : State) : Host.Outcome State Fault Refusal :=
  if s.busy then .next (overrunWrite s)
  else match decode w with
    | .illegal _ => .next (complete (.error .illegalCmd) s)
    | .command i => exec i s

/-- The effect of an admitted host write (R41). Writes of RESULT and of the reserved places are ignored (R24, R39). -/
def hostWrite (r : Slot) (v : Word) (s : State) : Host.Outcome State Fault Refusal :=
  match r with
  | .opa => .next (setOpa v s)
  | .opb => .next (setOpb v s)
  | .opm => .next (setOpm v s)
  | .cmd => commandWrite v s
  | .status => .next (writeStatus v s)
  | .result => .next s
  | .reserved30 => .next s
  | .reserved38 => .next s

/-- An admitted host read (R40): no side effect but the answer. -/
def hostRead (r : Slot) (s : State) : Host.Outcome State Fault Refusal := .next (respond (.data (readSlot r s)) s)

/-- One host access (R37, R43). While reset is asserted none is admitted (R111; entry 7). -/
def hostAccess (a : Access) (s : State) : Host.Outcome State Fault Refusal :=
  if s.inReset then .fault .hostAccessInReset
  else match a with
    | .read off bytes =>
      match slotAt off bytes with
      | some r => hostRead r s
      | none => .next (busError off s)
    | .write off bytes v =>
      match slotAt off bytes with
      | some r => hostWrite r v (respond .written s)
      | none => .next (busError off s)

end Sys2Proof.Machine
end

