-- ==== Sys2Proof/Machine/Step.lean ====
section
/-! DEFINITION. One step: the next event of the execution (spec/20_memory.md R43). -/

namespace Sys2Proof.Machine

/-- The oldest event is taken from `inputs` and carried out. When no event is left, a command in flight completes (the
weak fairness of R66 and R121, entry 3), and an idle CORE waits: it does nothing by itself (R112). -/
def step (s : State) : Host.Outcome State Fault Refusal :=
  match s.inputs with
  | [] => engineTurn s
  | .host a :: rest => hostAccess a { s with inputs := rest }
  | .engineWork :: rest => .next { s with inputs := rest }
  | .engineComplete :: rest => engineTurn { s with inputs := rest }
  | .resetAssert :: rest => .next (assertReset { s with inputs := rest })
  | .resetRelease :: rest => .next (releaseReset { s with inputs := rest })

/-- The state whose very next event is the host's write of the command word `w` to CMD (R50, R59: `wr CMD, w`), with
reset released so that the port takes it (R111). The CORE fetches nothing itself (R31): a command comes from outside, and
this stands for the host issuing it (entry 16). -/
def State.withFetchWord (s : State) (nbits w : Nat) : State :=
  { s with inputs := .host (.write 0x18 8 (BitVec.ofNat 64 (w % 2 ^ nbits))) :: s.inputs, inReset := false }

end Sys2Proof.Machine
end

