-- ==== Sys2Proof/Machine/HostNotation.lean ====
section
/-! DEFINITION. The host notation of spec/30_encoding.md R59 and R60, which the spec's programs are written in. "It is not
part of the CORE": here it is a driver that issues its window accesses to the machine's own `step` (entry 20). -/

namespace Sys2Proof.Machine

/-- A host register h0 to h7 (R59). -/
abbrev HostReg := Fin 8

/-- A label (R59: `L:`), held as a number. -/
abbrev Label := Nat

/-- A value of a `wr` line or of a pseudo-instruction: "an immediate or a host register" (R60). -/
inductive HostValue where
  | imm (v : Word)
  | reg (h : HostReg)
  deriving DecidableEq, Repr

/-- The host operations of R59. -/
inductive HostOp where
  | wr (r : Slot) (v : HostValue)
  | rd (h : HostReg) (r : Slot)
  | li (h : HostReg) (v : Word)
  | andi (x y : HostReg) (v : Word)
  | srli (x y : HostReg) (k : Nat)
  | addi (x y : HostReg) (v : Word)
  | beq (x : HostReg) (v : Word) (target : Label)
  | bne (x : HostReg) (v : Word) (target : Label)
  | j (target : Label)
  | halt
  deriving DecidableEq, Repr

/-- A line of a program: a host operation, with a label or without. -/
structure HostLine where
  label : Option Label
  op : HostOp
  deriving DecidableEq, Repr

/-- An entry of a program's trace (R59): `(W, off, v)` or `(R, off) -> v`. -/
inductive TraceEntry where
  | write (off : Int) (v : Word)
  | read (off : Int) (v : Word)
  deriving DecidableEq, Repr

/-- Whose turn it is in the interleaving of R43. -/
inductive Turn where
  | host
  | engine
  deriving DecidableEq, Repr

/-- A host program beside the CORE. The host's registers "start unwritten" (R33, R59): that is the notation's own state, so
a register is an Option. -/
structure HostSystem where
  core : State
  program : List HostLine
  line : Nat
  regs : Vector (Option Word) 8
  halted : Bool
  trace : List TraceEntry
  turns : List Turn
  deriving DecidableEq, Repr

/-- Why a host program stops other than by `halt`. -/
inductive HostStop where
  /-- R59: "a program reads only registers it has written". Safe. -/
  | unwrittenRegister (h : HostReg)
  /-- A jump to a label no line carries: no program of R59. Safe. -/
  | unknownLabel (target : Label)
  /-- Control past the last line: no program of R59. Safe. -/
  | pastTheEnd
  /-- The CORE's step stopped. Safe. -/
  | coreFault (f : Fault)
  deriving DecidableEq, Repr

/-- A program before its first line, on a CORE after reset. -/
def HostSystem.start (program : List HostLine) (turns : List Turn) : HostSystem where
  core := State.reset
  program := program
  line := 0
  regs := Vector.replicate 8 none
  halted := false
  trace := []
  turns := turns

/-- The value of a host register, none while unwritten. -/
def HostSystem.reg (S : HostSystem) (h : HostReg) : Option Word := S.regs[h]

/-- A host value, or the register that has not been written. -/
def HostSystem.value (S : HostSystem) : HostValue → Except HostStop Word
  | .imm v => .ok v
  | .reg h => match S.reg h with
    | some v => .ok v
    | none => .error (.unwrittenRegister h)

/-- Write a host register and go to the next line. -/
def HostSystem.setReg (S : HostSystem) (h : HostReg) (v : Word) : HostSystem :=
  { S with regs := S.regs.set h (some v), line := S.line + 1 }

/-- The line a label stands at. Where several lines carry the label it is the first of them: R59 and R60 say nothing of that
case, and this is the model's choice (DESIGN CHOICE, entry 24). -/
def HostSystem.lineOf (S : HostSystem) (target : Label) : Option Nat :=
  S.program.findIdx? (fun l => l.label == some target)

/-- Go to a label. -/
def HostSystem.goTo (S : HostSystem) (target : Label) : Host.Outcome HostSystem HostStop Refusal :=
  match S.lineOf target with
  | some k => .next { S with line := k }
  | none => .fault (.unknownLabel target)

/-- One event is given to the machine's step. -/
def HostSystem.deliver (S : HostSystem) (e : Input) : Host.Outcome State Fault Refusal :=
  step { S.core with inputs := e :: S.core.inputs }

/-- Use a register's value, or stop where it is unwritten. -/
def HostSystem.withReg (S : HostSystem) (h : HostReg) (k : Word → Host.Outcome HostSystem HostStop Refusal) :
    Host.Outcome HostSystem HostStop Refusal :=
  match S.reg h with
  | some v => k v
  | none => .fault (.unwrittenRegister h)

/-- `wr R, v` performs `MemWrite(off(R), 8, v)` (R59). -/
def HostSystem.wr (S : HostSystem) (r : Slot) (v : HostValue) : Host.Outcome HostSystem HostStop Refusal :=
  match S.value v with
  | .error stop => .fault stop
  | .ok w =>
    match S.deliver (.host (.write r.offset 8 w)) with
    | .next c => .next { S with core := c, line := S.line + 1, trace := S.trace ++ [.write r.offset w] }
    | .fault f => .fault (.coreFault f)
    | .refused why => .refused why

/-- `rd hX, R` performs `hX <- MemRead(off(R), 8)` (R59). -/
def HostSystem.rd (S : HostSystem) (h : HostReg) (r : Slot) : Host.Outcome HostSystem HostStop Refusal :=
  match S.deliver (.host (.read r.offset 8)) with
  | .next c =>
    match c.response with
    | .data v => .next { S.setReg h v with core := c, trace := S.trace ++ [.read r.offset v] }
    | _ => .next { S with core := c, line := S.line + 1 }
  | .fault f => .fault (.coreFault f)
  | .refused why => .refused why

/-- One host operation (R59). -/
def HostSystem.perform (S : HostSystem) : HostOp → Host.Outcome HostSystem HostStop Refusal
  | .wr r v => S.wr r v
  | .rd h r => S.rd h r
  | .li h v => .next (S.setReg h v)
  | .andi x y v => S.withReg y (fun w => .next (S.setReg x (w &&& v)))
  | .srli x y k => S.withReg y (fun w => .next (S.setReg x (w >>> k)))
  | .addi x y v => S.withReg y (fun w => .next (S.setReg x (w + v)))
  | .beq x v target => S.withReg x (fun w => if w = v then S.goTo target else .next { S with line := S.line + 1 })
  | .bne x v target => S.withReg x (fun w => if w = v then .next { S with line := S.line + 1 } else S.goTo target)
  | .j target => S.goTo target
  | .halt => .next { S with halted := true }

/-- The host's turn: one line. -/
def HostSystem.hostTurn (S : HostSystem) : Host.Outcome HostSystem HostStop Refusal :=
  if S.halted then .next S
  else match S.program[S.line]? with
    | some l => S.perform l.op
    | none => .fault .pastTheEnd

/-- The engine's turn (R65). -/
def HostSystem.engineTurn (S : HostSystem) : Host.Outcome HostSystem HostStop Refusal :=
  match S.deliver .engineComplete with
  | .next c => .next { S with core := c }
  | .fault f => .fault (.coreFault f)
  | .refused why => .refused why

/-- One step of the host program beside the CORE. When no turn is left, a command in flight completes before the host goes
on: a fair schedule (R66, R121). -/
def HostSystem.step (S : HostSystem) : Host.Outcome HostSystem HostStop Refusal :=
  match S.turns with
  | .host :: rest => ({ S with turns := rest } : HostSystem).hostTurn
  | .engine :: rest => ({ S with turns := rest } : HostSystem).engineTurn
  | [] => if S.core.busy then S.engineTurn else S.hostTurn

/-! ### The pseudo-instructions of R60 -/

/-- An operation without a label. -/
def HostOp.plain (op : HostOp) : HostLine := { label := none, op := op }

/-- `poll hT`, its label being `p`. R60 writes P in every expansion and does not say that it is fresh; who writes a program
chooses `p` for each expansion (DESIGN CHOICE, entry 24). -/
def pollLines (p : Label) (t : HostReg) : List HostLine :=
  [{ label := some p, op := .rd t .status }, HostOp.plain (.andi t t 1), HostOp.plain (.bne t 0 p)]

/-- `cause hD`. -/
def causeLines (d : HostReg) : List HostLine :=
  [HostOp.plain (.rd d .status), HostOp.plain (.srli d d 4), HostOp.plain (.andi d d 0xF)]

/-- `MULMOD hD, a, b, m`. -/
def mulmodLines (p : Label) (d : HostReg) (a b m : HostValue) : List HostLine :=
  [HostOp.plain (.wr .opa a), HostOp.plain (.wr .opb b), HostOp.plain (.wr .opm m),
    HostOp.plain (.wr .cmd (.imm (encode .mulmod)))] ++ pollLines p d ++ [HostOp.plain (.rd d .result)]

/-- `POWMOD hD, a, p, m`. -/
def powmodLines (p : Label) (d : HostReg) (a e m : HostValue) : List HostLine :=
  [HostOp.plain (.wr .opa a), HostOp.plain (.wr .opb e), HostOp.plain (.wr .opm m),
    HostOp.plain (.wr .cmd (.imm (encode .powmod)))] ++ pollLines p d ++ [HostOp.plain (.rd d .result)]

/-- `SPRP hD, n, a`. -/
def sprpLines (p : Label) (d : HostReg) (n a : HostValue) : List HostLine :=
  [HostOp.plain (.wr .opa a), HostOp.plain (.wr .opm n),
    HostOp.plain (.wr .cmd (.imm (encode .sprp)))] ++ pollLines p d ++ [HostOp.plain (.rd d .result)]

/-- `REDUCE hD, a, m` (R60, R73). -/
def reduceLines (p : Label) (d : HostReg) (a m : HostValue) : List HostLine := mulmodLines p d a (.imm 1) m

end Sys2Proof.Machine
end

