-- ==== Sys2Proof/Machine/Platform.lean ====
section
/-! DEFINITION. The window as the host's platform sees it: absolute addresses (spec/20_memory.md R34, R49) and the
little-endian bytes of a byte-addressed platform (R38). -/

namespace Sys2Proof.Machine

/-- The window offset of an absolute address (R34, R49). -/
def platformOffset (addr : Nat) : Int := (addr : Int) - (Config.windowBase : Int)

/-- A host read of `bytes` bytes at an absolute address. -/
def platformRead (addr bytes : Nat) : Input := .host (.read (platformOffset addr) bytes)

/-- A host write of `bytes` bytes at an absolute address. -/
def platformWrite (addr bytes : Nat) (v : Word) : Input := .host (.write (platformOffset addr) bytes v)

/-- The byte of the window at byte offset `off`: byte k of a register is bits 8k+7:8k (R38). None outside the window: the
CORE has no other address space (R34). No access reads a single byte (R37); this is the window's layout. -/
def windowByte (off : Int) (s : State) : Option Byte :=
  match Slot.ofOffset (8 * (off / 8)) with
  | some r => some (byteOf (readSlot r s) (off % 8).toNat)
  | none => none

/-- The byte at an absolute address (R38: `base + off + k`). -/
def platformByte (addr : Nat) (s : State) : Option Byte := windowByte (platformOffset addr) s

end Sys2Proof.Machine
end

