-- ==== Sys2Proof/Machine/Work.lean ====
section
/-! DEFINITION. The work of a command, counted in mulmod operations (spec/41_modular_arithmetic.md R78,
spec/42_strong_witness.md R90, spec/70_reset_and_hazards.md R122): the loops of R74 and R81 again, with a counter. Counts
of work, not of time: no step reads them. -/

namespace Sys2Proof.Machine

/-- The loop of R74 with the count of mulmods made so far. -/
def powLoopCounted (m : Word) : Nat → Word → Word → Word → Nat → Word × Nat
  | 0, y, _, _, c => (y, c)
  | fuel + 1, y, base, e, c =>
    if e = 0 then (y, c)
    else powLoopCounted m fuel (if e.getLsbD 0 then mulmod y base m else y) (mulmod base base m) (e >>> 1)
      (c + (if e.getLsbD 0 then 1 else 0) + 1)

/-- `powmod` with its count of mulmods. -/
def powmodCounted (a p m : Word) : Word × Nat := powLoopCounted m 64 1 a p 0

/-- The loop of R86 with the count of mulmods made so far; the squaring after the last comparison is counted, as R90 does. -/
def squareLoopCounted (n : Word) : Nat → Word → Nat → Bool × Nat
  | 0, _, c => (false, c)
  | rounds + 1, ap, c => if ap = n - 1 then (true, c) else squareLoopCounted n rounds (mulmod ap ap n) (c + 1)

/-- `sprp` with its count of mulmods. -/
def sprpCounted (n a : Word) : Bool × Nat :=
  if a = 0 then (true, 0)
  else
    let (d, s) := decompose n
    let (ap, c) := powmodCounted a d n
    if ap = 1 then (true, c) else squareLoopCounted n s ap c

/-- R78: `bitlen(p) = floor(log2 p) + 1` for p >= 1; 0 for p = 0. -/
def bitLength (p : Word) : Nat := if p = 0 then 0 else Nat.log2 p.toNat + 1

/-- R78: the number of bits of `p` that are 1. -/
def popCount (p : Word) : Nat := (List.range 64).countP (fun k => p.getLsbD k)

end Sys2Proof.Machine
end

