-- ==== Sys2Proof/Safety.lean ====
section
/-! DEFINITION. The terms claims use: the invariant of spec/10_state.md R27, runs, the premise of
spec/60_exceptions.md R110, and what an event or a schedule is (spec/20_memory.md R43,
spec/40_command_dispatch.md R66). -/

namespace Sys2Proof.Machine

/-- R27: BUSY = 1 implies DONE = 0. -/
abbrev State.NotBusyAndDone (s : State) : Prop := s.busy = true → s.done = false

/-- R27: LOP is in {1, 2, 3} whenever BUSY = 1. -/
abbrev State.LatchedOpcodeKnown (s : State) : Prop := s.busy = true → s.lop = 1 ∨ s.lop = 2 ∨ s.lop = 3

/-- R27: LM >= 1 whenever BUSY = 1. -/
abbrev State.LatchedModulusPositive (s : State) : Prop := s.busy = true → s.lm ≠ 0

/-- R27: whenever BUSY = 1 and LOP = 3, LM is odd, LM > 3 and LA < LM. -/
abbrev State.LatchedCandidateInDomain (s : State) : Prop :=
  s.busy = true → s.lop = 3 → s.lm.toNat % 2 = 1 ∧ 3 < s.lm.toNat ∧ s.la.toNat < s.lm.toNat

/-- R27: CAUSE is in {0, 1, 2, 3}. -/
abbrev State.CauseLegal (s : State) : Prop := s.cause = 0 ∨ s.cause = 1 ∨ s.cause = 2 ∨ s.cause = 3

/-- The invariant: the clauses of R27. -/
abbrev State.Inv (s : State) : Prop :=
  s.NotBusyAndDone ∧ s.LatchedOpcodeKnown ∧ s.LatchedModulusPositive ∧ s.LatchedCandidateInDomain ∧ s.CauseLegal

/-- An invariant of the model's own field `inReset`: while reset is asserted no command is in flight (R111). -/
abbrev State.ResetIsIdle (s : State) : Prop := s.inReset = true → s.busy = false

/-- R110's premise of a claim about a program: no error has been recorded. -/
abbrev State.NoErrorRecorded (s : State) : Prop := s.hostFaults = []

/-- `k` steps, stopping at the first fault or refusal. -/
def runN : Nat → State → Host.Outcome State Fault Refusal
  | 0, s => .next s
  | k + 1, s =>
    match step s with
    | .next t => runN k t
    | .fault f => .fault f
    | .refused r => .refused r

/-- The event neither completes a command nor touches reset: a host access or an internal engine step. -/
def Input.isHostOrWork : Input → Bool
  | .host _ => true
  | .engineWork => true
  | .engineComplete => false
  | .resetAssert => false
  | .resetRelease => false

/-- The event is an admitted write of CMD. -/
def Input.writesCommand : Input → Bool
  | .host (.write off bytes _) => slotAt off bytes == some .cmd
  | _ => false

/-- The event can start or end nothing: no admitted CMD write and no assertion of reset. -/
def Input.startsNothing (e : Input) : Bool := !e.writesCommand && e != .resetAssert

/-- The LATENCY (R6, R66) a schedule gives the command in flight: the engine steps up to and including the completion. A
schedule that ends without one is completed by the step itself. -/
def latencyOf : List Input → Nat
  | [] => 1
  | .engineComplete :: _ => 1
  | .engineWork :: rest => latencyOf rest + 1
  | _ :: rest => latencyOf rest

end Sys2Proof.Machine
end

