-- ==== Sys2Proof/Certificates/Slice0/Obligations.lean ====
section
/-! DEFINITION. The statements for the provers. Each docstring names the rules of spec/ it formalises; where a clause rests
on a choice of the model it names the log entry. -/

open Sys2Proof Sys2Proof.Machine

/-! ### Encoding and decoding -/

/-- R57: the decoder on all 2^64 words, and the rows of the opcode table. -/
def Obligations.DecoderFollowsTheOpcodeMap : Prop :=
  ∀ w : Word,
    (decode w = .command .mulmod ↔ w = 0x0000000000000001) ∧
    (decode w = .command .powmod ↔ w = 0x0000000000000002) ∧
    (decode w = .command .sprp ↔ w = 0x0000000000000003) ∧
    ((∃ why, decode w = .illegal why) ↔
      w ≠ 0x0000000000000001 ∧ w ≠ 0x0000000000000002 ∧ w ≠ 0x0000000000000003) ∧
    (∀ i, decode w = .command i ↔ ∃ r ∈ opcodeTable, r.instr = i ∧ w &&& r.mask = r.pattern) ∧
    (∀ r ∈ opcodeTable, r.mask = 0xFFFFFFFFFFFFFFFF ∧ r.pattern = encode r.instr)

/-- R55: which words are illegal, how many there are, and what an illegal word does while the CORE is idle and while it is
busy. The record of the host's fault is R110's. -/
def Obligations.IllegalWordsAreRefused : Prop :=
  (∀ w : Word, (∃ why, decode w = .illegal why) ↔
    w.toNat / 2 ^ 8 ≠ 0 ∨ ¬(w.toNat % 2 ^ 8 = 1 ∨ w.toNat % 2 ^ 8 = 2 ∨ w.toNat % 2 ^ 8 = 3)) ∧
  (∃ why, decode 0 = .illegal why) ∧
  Nat.card {w : Word // ∃ why, decode w = .illegal why} = 2 ^ 64 - 3 ∧
  (∀ (w : Word) (s : State), (∃ why, decode w = .illegal why) →
    (s.busy = false → commandWrite w s = .next { s with cause := 1, busy := false, done := true, hostFaults := .errorCompletion .illegalCmd :: s.hostFaults }) ∧
    (s.busy = true → commandWrite w s = .next { s with overrun := true, hostFaults := .overrun :: s.hostFaults }))

/-- Decoding and encoding agree on bytes, both ways (R38's byte order, R50, R52): every command's bytes decode to it, with
the bytes after them left; and bytes that decode to a command are that command's bytes. -/
def Obligations.DecodeAndEncodeAgreeOnBytes : Prop :=
  ∀ (i : Instr) (bs rest : List Byte), decodeBytes bs = .command i rest ↔ bs = encodeBytes i ++ rest

/-- R52, R55: the three command words written out, and illegal words beside them. Which reason the decoder gives for an
illegal word is the model's choice (entry 19): the spec knows one ILLEGAL. -/
def Obligations.WordsOfTheOpcodeMap : Prop :=
  decode 0x0000000000000001 = .command .mulmod ∧ decode 0x0000000000000002 = .command .powmod ∧
  decode 0x0000000000000003 = .command .sprp ∧ decode 0x0000000000000000 = .illegal .unknownOpcode ∧
  decode 0x0000000000000004 = .illegal .unknownOpcode ∧ decode 0x0000000000000101 = .illegal .reservedBitsSet ∧
  decode 0x8000000000000001 = .illegal .reservedBitsSet

/-! ### A step runs the decoded command -/

/-- R41, R62: when the next event is a host write to CMD whose word decodes to a command, the step is `exec` of that command
on the state with the event taken and the bus answering; `withFetchWord` sets up exactly that. The list of events, the bus
answer and `withFetchWord` are the model's (entries 2, 14, 16). -/
def Obligations.StepRunsTheDecodedCommand : Prop :=
  (∀ (s : State) (rest : List Input) (w : Word) (i : Instr), s.inputs = .host (.write 0x18 8 w) :: rest →
    s.inReset = false → decode w = .command i →
    step s = exec i { s with inputs := rest, response := .written }) ∧
  (∀ (s : State) (i : Instr),
    step (s.withFetchWord 64 (encode i).toNat) = exec i { s with inReset := false, response := .written })

/-! ### The CMD write -/

/-- R62, R99: the CMD write by cases in the order of the rule, each with everything it writes: overrun (R61), illegal word
(R93), operand check (R94, R95), accept (R64). The record of the host's fault is R110's. -/
def Obligations.CommandWriteInPriorityOrder : Prop :=
  ∀ (w : Word) (s : State), commandWrite w s = .next (
    if s.busy = true then { s with overrun := true, hostFaults := .overrun :: s.hostFaults }
    else if w ≠ 1 ∧ w ≠ 2 ∧ w ≠ 3 then
      { s with cause := 1, busy := false, done := true, hostFaults := .errorCompletion .illegalCmd :: s.hostFaults }
    else if (w = 1 ∨ w = 2) ∧ s.opm = 0 then
      { s with cause := 2, busy := false, done := true, hostFaults := .errorCompletion .modulusZero :: s.hostFaults }
    else if w = 3 ∧ ¬(s.opm.toNat % 2 = 1 ∧ 3 < s.opm.toNat ∧ s.opa.toNat < s.opm.toNat) then
      { s with cause := 3, busy := false, done := true, hostFaults := .errorCompletion .sprpDomain :: s.hostFaults }
    else
      { s with lop := w.setWidth 8, la := s.opa, lb := s.opb, lm := s.opm, busy := true, done := false })

/-- R64: where each command is accepted, and everything accepting writes. -/
def Obligations.EveryCommandIsAccepted : Prop :=
  (∀ s : State, s.busy = false → s.opm ≠ 0 → exec .mulmod s =
    .next { s with lop := 1, la := s.opa, lb := s.opb, lm := s.opm, busy := true, done := false }) ∧
  (∀ s : State, s.busy = false → s.opm ≠ 0 → exec .powmod s =
    .next { s with lop := 2, la := s.opa, lb := s.opb, lm := s.opm, busy := true, done := false }) ∧
  (∀ s : State, s.busy = false → s.opm.toNat % 2 = 1 → 3 < s.opm.toNat → s.opa.toNat < s.opm.toNat → exec .sprp s =
    .next { s with lop := 3, la := s.opa, lb := s.opb, lm := s.opm, busy := true, done := false })

/-- R71: MULMOD whole: its command word, the overrun, MODULUS_ZERO, and the accept with the completion, whose RESULT is the
exact product reduced modulo m. -/
def Obligations.MulmodComputesTheProduct : Prop :=
  (∀ w : Word, decode w = .command .mulmod ↔ w = 0x0000000000000001) ∧ ∀ s : State,
    (s.busy = true → exec .mulmod s = .next { s with overrun := true, hostFaults := .overrun :: s.hostFaults }) ∧
    (s.busy = false → s.opm = 0 → exec .mulmod s = .next { s with cause := 2, busy := false, done := true, hostFaults := .errorCompletion .modulusZero :: s.hostFaults }) ∧
    (s.busy = false → s.opm ≠ 0 → ∃ t v, exec .mulmod s = .next t ∧
      t = { s with lop := 1, la := s.opa, lb := s.opb, lm := s.opm, busy := true, done := false } ∧
      engineTurn t = .next { t with result := v, cause := 0, busy := false, done := true } ∧
      v.toNat = s.opa.toNat * s.opb.toNat % s.opm.toNat)

/-- R75: POWMOD whole: its command word, the overrun, MODULUS_ZERO, and the accept with the completion, whose RESULT is the
power reduced modulo m, and 1 for exponent 0 (R76). -/
def Obligations.PowmodComputesThePower : Prop :=
  (∀ w : Word, decode w = .command .powmod ↔ w = 0x0000000000000002) ∧ ∀ s : State,
    (s.busy = true → exec .powmod s = .next { s with overrun := true, hostFaults := .overrun :: s.hostFaults }) ∧
    (s.busy = false → s.opm = 0 → exec .powmod s = .next { s with cause := 2, busy := false, done := true, hostFaults := .errorCompletion .modulusZero :: s.hostFaults }) ∧
    (s.busy = false → s.opm ≠ 0 → ∃ t v, exec .powmod s = .next t ∧
      t = { s with lop := 2, la := s.opa, lb := s.opb, lm := s.opm, busy := true, done := false } ∧
      engineTurn t = .next { t with result := v, cause := 0, busy := false, done := true } ∧
      v.toNat = if s.opb = 0 then 1 else s.opa.toNat ^ s.opb.toNat % s.opm.toNat)

/-- R82: SPRP whole: its command word, the overrun, SPRP_DOMAIN, and the accept with the completion, whose RESULT is the
verdict of the Miller-Rabin condition for the decomposition n - 1 = d * 2^k, d odd; LB is not read. -/
def Obligations.SprpDecidesTheStrongTest : Prop :=
  (∀ w : Word, decode w = .command .sprp ↔ w = 0x0000000000000003) ∧ ∀ s : State,
    (s.busy = true → exec .sprp s = .next { s with overrun := true, hostFaults := .overrun :: s.hostFaults }) ∧
    (s.busy = false → s.opm.toNat % 2 = 0 ∨ s.opm.toNat ≤ 3 ∨ s.opm.toNat ≤ s.opa.toNat → exec .sprp s = .next { s with cause := 3, busy := false, done := true, hostFaults := .errorCompletion .sprpDomain :: s.hostFaults }) ∧
    (s.busy = false → s.opm.toNat % 2 = 1 → 3 < s.opm.toNat → s.opa.toNat < s.opm.toNat → ∃ t v, exec .sprp s = .next t ∧
      t = { s with lop := 3, la := s.opa, lb := s.opb, lm := s.opm, busy := true, done := false } ∧
      engineTurn t = .next { t with result := v, cause := 0, busy := false, done := true } ∧
      (v = 0 ∨ v = 1) ∧
      ∀ d k : Nat, d % 2 = 1 → d * 2 ^ k = s.opm.toNat - 1 →
        (v = 1 ↔ s.opa = 0 ∨ s.opa.toNat ^ d % s.opm.toNat = 1 ∨
          ∃ r < k, s.opa.toNat ^ (d * 2 ^ r) % s.opm.toNat = s.opm.toNat - 1))

/-- R61: a CMD write of any word while BUSY = 1, also as a step of the machine (which says nothing of the bus answer). The
record of the host's fault is R110's. -/
def Obligations.CommandWhileBusyIsAnOverrun : Prop :=
  (∀ (s : State) (w : Word), s.busy = true →
    commandWrite w s = .next { s with overrun := true, hostFaults := .overrun :: s.hostFaults }) ∧
  (∀ (s : State) (rest : List Input) (w : Word), s.inputs = .host (.write 0x18 8 w) :: rest → s.inReset = false →
    s.busy = true → ∃ t, step s = .next t ∧
      t = { s with inputs := rest, response := t.response, overrun := true, hostFaults := .overrun :: s.hostFaults })

/-- R63: what ends a command writes. -/
def Obligations.CompleteWritesResultOnlyOnSuccess : Prop :=
  ∀ s : State,
    (∀ v, complete (.success v) s = { s with result := v, cause := 0, busy := false, done := true }) ∧
    (∀ c, (complete (.error c) s).result = s.result ∧ (complete (.error c) s).cause = c.code ∧
      (complete (.error c) s).busy = false ∧ (complete (.error c) s).done = true ∧
      (complete (.error c) s).opa = s.opa ∧ (complete (.error c) s).opb = s.opb ∧
      (complete (.error c) s).opm = s.opm ∧ (complete (.error c) s).overrun = s.overrun) ∧
    ErrorCause.illegalCmd.code = 1 ∧ ErrorCause.modulusZero.code = 2 ∧ ErrorCause.sprpDomain.code = 3

/-- R69: the frame of a command. A CMD write changes no operand register, not RESULT, and, unless it is an overrun, not
OVERRUN; it writes the latches only when it accepts; every byte of the window outside STATUS (0x20 to 0x27) reads as
before. A completion writes only RESULT and STATUS, and every byte outside 0x20 to 0x2F reads as before. The model's own
fields but R110's record are untouched. -/
def Obligations.CommandFrame : Prop :=
  (∀ (i : Instr) (s t : State), exec i s = .next t →
    t.opa = s.opa ∧ t.opb = s.opb ∧ t.opm = s.opm ∧ t.result = s.result ∧
    t.inputs = s.inputs ∧ t.inReset = s.inReset ∧ t.response = s.response ∧
    (s.busy = false → t.overrun = s.overrun) ∧
    (s.busy = true → t = { s with overrun := true, hostFaults := .overrun :: s.hostFaults }) ∧
    (t.busy = false → t.lop = s.lop ∧ t.la = s.la ∧ t.lb = s.lb ∧ t.lm = s.lm) ∧
    (∀ off : Int, ¬(0x20 ≤ off ∧ off < 0x28) → windowByte off t = windowByte off s)) ∧
  (∀ s t : State, engineComplete s = .next t →
    t = { s with result := t.result, cause := t.cause, busy := t.busy, done := t.done } ∧
    (∀ off : Int, ¬(0x20 ≤ off ∧ off < 0x30) → windowByte off t = windowByte off s))

/-! ### The engine and the invariant -/

/-- R65, R67: the completion step is enabled exactly when BUSY = 1; in every state of the invariant it completes
successfully, with the value of the latched command; while idle it changes nothing (entry 5). -/
def Obligations.EngineStepNeverFails : Prop :=
  ∀ s : State,
    (s.busy = false → engineTurn s = .next s) ∧
    (s.Inv → s.busy = true → ∃ v, engineTurn s = .next { s with result := v, cause := 0, busy := false, done := true } ∧
      ((s.lop = 1 ∧ v = mulmod s.la s.lb s.lm) ∨ (s.lop = 2 ∧ v = powmod s.la s.lb s.lm) ∨
        (s.lop = 3 ∧ v = if sprp s.lm s.la then 1 else 0)))

/-- R27: its clauses hold after reset and every step keeps them, from every state that meets them, reachable or not. -/
def Obligations.EveryStepKeepsTheInvariant : Prop :=
  State.reset.Inv ∧ ∀ s t : State, s.Inv → step s = .next t → t.Inv

/-- R27, R111: the state after reset meets the invariant and the model's own invariant that reset leaves the CORE idle. -/
def Obligations.ResetMeetsTheInvariant : Prop := State.reset.Inv ∧ State.reset.ResetIsIdle

/-- R111: while reset is asserted the CORE is idle: every step keeps it, from every state where it holds. The level of reset
is a field of the model's own (entry 15). -/
def Obligations.EveryStepKeepsResetIdle : Prop :=
  ∀ s t : State, s.ResetIsIdle → step s = .next t → t.ResetIsIdle

/-- R65, R91, R111: in a state of the invariant a step stops only on a host access while reset is asserted, which R111 does
not admit; and no step is ever refused. -/
def Obligations.OnlyAnAccessDuringResetStops : Prop :=
  ∀ s : State, s.Inv →
    (∀ r, step s ≠ .refused r) ∧
    (∀ f, step s = .fault f ↔
      f = .hostAccessInReset ∧ s.inReset = true ∧ ∃ a rest, s.inputs = .host a :: rest)

/-! ### Who writes what: rules over every step -/

/-- R14, R15, R16, R111: an operand register changes only by the host's write of it, to the value written, or by reset. -/
def Obligations.OperandRegistersAreTheHosts : Prop :=
  ∀ s t : State, step s = .next t →
    (t.opa ≠ s.opa → ∃ rest, (∃ v, s.inputs = .host (.write 0x00 8 v) :: rest ∧ t.opa = v) ∨
      (s.inputs = .resetAssert :: rest ∧ t.opa = 0)) ∧
    (t.opb ≠ s.opb → ∃ rest, (∃ v, s.inputs = .host (.write 0x08 8 v) :: rest ∧ t.opb = v) ∨
      (s.inputs = .resetAssert :: rest ∧ t.opb = 0)) ∧
    (t.opm ≠ s.opm → ∃ rest, (∃ v, s.inputs = .host (.write 0x10 8 v) :: rest ∧ t.opm = v) ∨
      (s.inputs = .resetAssert :: rest ∧ t.opm = 0))

/-- R24, R111: RESULT changes only at a successful completion or by reset; in particular not while a command stays in
flight. -/
def Obligations.ResultChangesOnlyAtSuccess : Prop :=
  ∀ s t : State, step s = .next t → t.result ≠ s.result →
    (s.busy = true ∧ t.busy = false ∧ t.done = true ∧ t.cause = 0) ∨
    (∃ rest, s.inputs = .resetAssert :: rest ∧ t.result = 0)

/-- R21, R111: CAUSE changes only by the engine's completion of the command in flight, which writes 0; by a CMD write while
idle that completes at once with an error, which writes 1, 2 or 3; or by reset. An event list that is empty gives the engine
its turn (entry 3). -/
def Obligations.CauseChangesOnlyAtCompletion : Prop :=
  ∀ s t : State, step s = .next t → t.cause ≠ s.cause →
    t.busy = false ∧
    ((s.busy = true ∧ (s.inputs = [] ∨ ∃ rest, s.inputs = .engineComplete :: rest) ∧ t.done = true ∧ t.cause = 0) ∨
      (s.busy = false ∧ (∃ w rest, s.inputs = .host (.write 0x18 8 w) :: rest) ∧ t.done = true ∧
        (t.cause = 1 ∨ t.cause = 2 ∨ t.cause = 3)) ∨
      (∃ rest, s.inputs = .resetAssert :: rest ∧ t.cause = 0))

/-- R22: OVERRUN is set by a CMD write while BUSY = 1 and by nothing else; cleared by a write to STATUS with bit 8 set, or
by reset, and by nothing else; a write to STATUS with bit 8 clear leaves it. -/
def Obligations.OverrunIsSticky : Prop :=
  (∀ s t : State, step s = .next t →
    (s.overrun = false → t.overrun = true →
      s.busy = true ∧ ∃ w rest, s.inputs = .host (.write 0x18 8 w) :: rest) ∧
    (s.overrun = true → t.overrun = false →
      (∃ v rest, s.inputs = .host (.write 0x20 8 v) :: rest ∧ v.getLsbD 8 = true) ∨
      (∃ rest, s.inputs = .resetAssert :: rest))) ∧
  (∀ (s : State) (rest : List Input) (v : Word), s.inReset = false → s.inputs = .host (.write 0x20 8 v) :: rest →
    ∃ t, step s = .next t ∧ (v.getLsbD 8 = true → t.overrun = false) ∧ (v.getLsbD 8 = false → t.overrun = s.overrun)) ∧
  (∀ (s : State) (rest : List Input) (w : Word), s.inReset = false → s.busy = true →
    s.inputs = .host (.write 0x18 8 w) :: rest → ∃ t, step s = .next t ∧ t.overrun = true) ∧
  State.reset.overrun = false

/-- R25: the latches change only at an accept, which fills them from the operand registers, or by reset (where the spec
leaves them unspecified: entry 1). -/
def Obligations.LatchesChangeOnlyAtAccept : Prop :=
  ∀ s t : State, step s = .next t →
    (t.lop = s.lop ∧ t.la = s.la ∧ t.lb = s.lb ∧ t.lm = s.lm) ∨
    (s.busy = false ∧ t.busy = true ∧ t.la = s.opa ∧ t.lb = s.opb ∧ t.lm = s.opm ∧
      ∃ w rest, s.inputs = .host (.write 0x18 8 w) :: rest ∧ t.lop = w.setWidth 8) ∨
    (∃ rest, s.inputs = .resetAssert :: rest)

/-- R25: while BUSY = 0 the latches are never read. Two idle states that differ only in the latches step alike: the same
outcome, or next states that again differ at most in the latches; and every read of the window is the same. -/
def Obligations.IdleLatchesAreNeverRead : Prop :=
  ∀ (s : State) (op : BitVec 8) (a b m : Word), s.busy = false →
    (∀ r, readSlot r { s with lop := op, la := a, lb := b, lm := m } = readSlot r s) ∧
    (∀ t, step s = .next t → ∃ t', step { s with lop := op, la := a, lb := b, lm := m } = .next t' ∧
      (t' = t ∨ (t.busy = false ∧ t' = { t with lop := op, la := a, lb := b, lm := m }))) ∧
    (∀ f, step s = .fault f → step { s with lop := op, la := a, lb := b, lm := m } = .fault f)

/-! ### The register window -/

/-- R23: the reserved bits of STATUS read as 0 in every state, and a write to STATUS that differs in them only has the same
effect. -/
def Obligations.ReservedStatusBitsReadZero : Prop :=
  (∀ (s : State) (k : Nat), k = 2 ∨ k = 3 ∨ 9 ≤ k → (readSlot .status s).getLsbD k = false) ∧
  (∀ (s : State) (v v' : Word), v.getLsbD 8 = v'.getLsbD 8 → hostWrite .status v s = hostWrite .status v' s)

/-- R40: every admitted read, as a step: the value of the table, and no effect but the bus answer. -/
def Obligations.ReadsReturnTheTableValue : Prop :=
  ∀ (s : State) (rest : List Input) (r : Slot), s.inReset = false → s.inputs = .host (.read r.offset 8) :: rest →
    ∃ v, step s = .next { s with inputs := rest, response := .data v } ∧
      match r with
      | .opa => v = s.opa
      | .opb => v = s.opb
      | .opm => v = s.opm
      | .cmd => v = 0
      | .status => v.toNat = 256 * s.overrun.toNat + 16 * s.cause.toNat + 2 * s.done.toNat + s.busy.toNat
      | .result => v = s.result
      | .reserved30 => v = 0
      | .reserved38 => v = 0

/-- R41: every admitted write, as a step, and no other effect than the rule's. Of the bus answer (entry 14) it says
nothing. -/
def Obligations.WritesHaveTheListedEffect : Prop :=
  ∀ (s : State) (rest : List Input) (r : Slot) (v : Word), s.inReset = false →
    s.inputs = .host (.write r.offset 8 v) :: rest →
    ∃ t, step s = .next t ∧
      match r with
      | .opa => t = { s with inputs := rest, response := t.response, opa := v }
      | .opb => t = { s with inputs := rest, response := t.response, opb := v }
      | .opm => t = { s with inputs := rest, response := t.response, opm := v }
      | .cmd => commandWrite v { s with inputs := rest, response := t.response } = .next t
      | .status => t = { s with inputs := rest, response := t.response, overrun := if v.getLsbD 8 then false else s.overrun }
      | .result => t = { s with inputs := rest, response := t.response }
      | .reserved30 => t = { s with inputs := rest, response := t.response }
      | .reserved38 => t = { s with inputs := rest, response := t.response }

/-- R37, R97: an access is admitted exactly under the rule's condition, and then reaches the place at its offset; any other
access changes no state of the CORE and is answered with BusError. The record is R110's. -/
def Obligations.AccessesAreAdmittedByWidthAndOffset : Prop :=
  ∀ (off : Int) (n : Nat),
    ((n = 8 ∧ off % 8 = 0 ∧ 0 ≤ off ∧ off ≤ 0x38) → ∃ r, slotAt off n = some r ∧ r.offset = off) ∧
    (¬(n = 8 ∧ off % 8 = 0 ∧ 0 ≤ off ∧ off ≤ 0x38) →
      ∀ (s : State) (rest : List Input), s.inReset = false →
        (s.inputs = .host (.read off n) :: rest ∨ (∃ v, s.inputs = .host (.write off n v) :: rest)) →
        step s = .next { s with inputs := rest, response := .busError off, hostFaults := .busError off :: s.hostFaults })

/-- R34, R38, R49: the window's bytes on a byte-addressed platform: byte k of the register at offset off stands at
WINDOW_BASE + off + k; no other address shows the CORE; the base is a multiple of 64; and an access at an absolute address
is the access at its offset. -/
def Obligations.PlatformSeesLittleEndianWindow : Prop :=
  Config.windowBase % 64 = 0 ∧
  (∀ (s : State) (r : Slot) (addr k : Nat), k < 8 → (addr : Int) = Config.windowBase + r.offset + k →
    ∃ b, platformByte addr s = some b ∧ b.toNat = (readSlot r s).toNat / 2 ^ (8 * k) % 2 ^ 8) ∧
  (∀ (s : State) (addr : Nat), addr < Config.windowBase ∨ Config.windowBase + 64 ≤ addr → platformByte addr s = none) ∧
  (∀ (r : Slot) (addr n : Nat) (v : Word), (addr : Int) = Config.windowBase + r.offset →
    platformRead addr n = .host (.read r.offset n) ∧ platformWrite addr n v = .host (.write r.offset n v))

/-- R115: a read right after a write to the same operand register returns the written value, and a CMD write right after it
sees it. That a write is answered with `written` is the model's choice (entry 14). -/
def Obligations.WriteIsSeenByTheNextAccess : Prop :=
  ∀ (s : State) (rest : List Input) (v : Word) (r : Slot), r = .opa ∨ r = .opb ∨ r = .opm → s.inReset = false →
    s.inputs = .host (.write r.offset 8 v) :: rest →
    ∃ t, step s = .next t ∧ t.inputs = rest ∧ readSlot r t = v ∧
      (∀ rest', rest = .host (.read r.offset 8) :: rest' → ∃ u, runN 2 s = .next u ∧ u.response = .data v) ∧
      (∀ w, commandWrite w t = commandWrite w
        { s with inputs := rest, response := .written, opa := if r = .opa then v else s.opa, opb := if r = .opb then v else s.opb, opm := if r = .opm then v else s.opm })

/-! ### A command from accept to completion -/

/-- R47, R66, R119: whatever host accesses and internal engine steps fall between the accept and the completion, the command
completes with the value of the operands latched at the accept. -/
def Obligations.CommandInFlightIsUndisturbed : Prop :=
  ∀ (i : Instr) (s t : State), s.busy = false → s.inReset = false → exec i s = .next t → t.busy = true →
    ∀ (between rest : List Input), (∀ e ∈ between, e.isHostOrWork = true) →
      ∃ u, runN (between.length + 1) { t with inputs := between ++ .engineComplete :: rest } = .next u ∧
        u.busy = false ∧ u.done = true ∧ u.cause = 0 ∧ u.inputs = rest ∧
        u.result = match i with
          | .mulmod => mulmod s.opa s.opb s.opm
          | .powmod => powmod s.opa s.opb s.opm
          | .sprp => if sprp s.opm s.opa then 1 else 0

/-- R68: two executions of one command with the same operands give the same RESULT, whatever else the two states hold,
whatever OPB holds for SPRP, and whatever falls between each accept and its completion. -/
def Obligations.ResultDependsOnlyOnOperands : Prop :=
  ∀ (i : Instr) (s₁ s₂ t₁ t₂ u₁ u₂ : State) (between₁ between₂ rest₁ rest₂ : List Input),
    s₁.opa = s₂.opa → s₁.opm = s₂.opm → (i = .sprp ∨ s₁.opb = s₂.opb) →
    s₁.busy = false → s₂.busy = false → s₁.inReset = false → s₂.inReset = false →
    exec i s₁ = .next t₁ → exec i s₂ = .next t₂ → t₁.busy = true →
    (∀ e ∈ between₁, e.isHostOrWork = true) → (∀ e ∈ between₂, e.isHostOrWork = true) →
    runN (between₁.length + 1) { t₁ with inputs := between₁ ++ .engineComplete :: rest₁ } = .next u₁ →
    runN (between₂.length + 1) { t₂ with inputs := between₂ ++ .engineComplete :: rest₂ } = .next u₂ →
    t₂.busy = true ∧ u₁.result = u₂.result ∧ u₁.cause = u₂.cause ∧ u₁.done = true ∧ u₂.done = true

/-- R66, R121: from every state of the two invariants with a command in flight, the command ends within one step more than
the events that wait. That the last step completes it when no event is left is the fairness of entry 3. -/
def Obligations.EveryCommandInFlightEnds : Prop :=
  ∀ s : State, s.Inv → s.ResetIsIdle → s.busy = true →
    ∃ k t, k ≤ s.inputs.length + 1 ∧ runN k s = .next t ∧ t.busy = false

/-- R6, R66: LATENCY is open: for every command and every number of engine steps from 1 up, some schedule completes the
command at exactly that engine step and at none before (entry 4). -/
def Obligations.EveryLatencyOccurs : Prop :=
  ∀ (i : Instr) (s t : State) (n : Nat), s.busy = false → s.inReset = false → exec i s = .next t → t.busy = true → 1 ≤ n →
    ∃ inputs, latencyOf inputs = n ∧ (∀ e ∈ inputs, e = .engineWork ∨ e = .engineComplete) ∧
      (∀ k < n, ∃ u, runN k { t with inputs := inputs } = .next u ∧ u.busy = true) ∧
      ∃ u, runN n { t with inputs := inputs } = .next u ∧ u.busy = false ∧ u.done = true

/-- R44: once idle, RESULT, CAUSE and DONE keep their values through any run of events without an admitted CMD write and
without reset. -/
def Obligations.ResultStaysUntilTheNextCommand : Prop :=
  ∀ (k : Nat) (s t : State), s.busy = false → (∀ e ∈ s.inputs.take k, e.startsNothing = true) → runN k s = .next t →
    t.busy = false ∧ t.result = s.result ∧ t.cause = s.cause ∧ t.done = s.done

/-! ### Errors -/

/-- R91: a step that records an error of the host program changes no operand register and not RESULT, and shows the error in
CAUSE, in OVERRUN or in the bus answer. -/
def Obligations.ErrorsChangeNoOperandAndNoResult : Prop :=
  ∀ (s t : State) (f : HostFault), step s = .next t → t.hostFaults = f :: s.hostFaults →
    t.opa = s.opa ∧ t.opb = s.opb ∧ t.opm = s.opm ∧ t.result = s.result ∧
    match f with
    | .errorCompletion c => s.busy = false ∧ t.busy = false ∧ t.done = true ∧ t.cause = c.code ∧ t.overrun = s.overrun
    | .overrun => s.busy = true ∧ t.busy = true ∧ t.overrun = true ∧ t.cause = s.cause ∧ t.done = s.done
    | .busError off => t.response = .busError off ∧ readSlot .status t = readSlot .status s

/-- R110: every error is recorded by the step that makes it, also one that repeats an earlier one: a CMD write while busy, a
CMD write while idle that ends at once (an error completion), an access that R37 does not admit. No other step records
anything, and the record is kept for the rest of the run. The form of the record, and that reset keeps it, are the model's
choice (entry 6). -/
def Obligations.ErrorsAreRecordedAndKept : Prop :=
  (∀ s t : State, step s = .next t → t.hostFaults = s.hostFaults ∨ ∃ f, t.hostFaults = f :: s.hostFaults) ∧
  (∀ (k : Nat) (s t : State), runN k s = .next t → s.hostFaults <:+ t.hostFaults) ∧
  (∀ s t : State, step s = .next t →
    (∀ w rest, s.inputs = .host (.write 0x18 8 w) :: rest → s.busy = true →
      t.hostFaults = .overrun :: s.hostFaults) ∧
    (∀ w rest, s.inputs = .host (.write 0x18 8 w) :: rest → s.busy = false → t.busy = false →
      ∃ c : ErrorCause, t.cause = c.code ∧ t.hostFaults = .errorCompletion c :: s.hostFaults) ∧
    (∀ off n rest, (s.inputs = .host (.read off n) :: rest ∨ ∃ v, s.inputs = .host (.write off n v) :: rest) →
      ¬(n = 8 ∧ off % 8 = 0 ∧ 0 ≤ off ∧ off ≤ 0x38) → t.hostFaults = .busError off :: s.hostFaults)) ∧
  (∀ s t : State, step s = .next t → t.hostFaults ≠ s.hostFaults →
    (∃ w rest, s.inputs = .host (.write 0x18 8 w) :: rest ∧ (s.busy = true ∨ t.busy = false)) ∨
    (∃ off n rest, (s.inputs = .host (.read off n) :: rest ∨ ∃ v, s.inputs = .host (.write off n v) :: rest) ∧
      ¬(n = 8 ∧ off % 8 = 0 ∧ 0 ≤ off ∧ off ≤ 0x38))) ∧
  (∀ s t : State, step s = .next t → t.hostFaults = s.hostFaults →
    (t.done = true → t.cause ≠ 0 → s.done = true ∧ t.cause = s.cause) ∧ (t.overrun = true → s.overrun = true) ∧
    (∀ off, t.response = .busError off → s.response = .busError off))

/-! ### Reset -/

/-- R111: reset at any time, also with a command in flight: the registers and STATUS become 0, the command is abandoned and
no completion for it follows in any run until another command is written, no host access is admitted while reset is
asserted, and the release leaves the CORE idle. That an access during reset, which the rule does not admit, is a fault, and
that the release is an event of its own, are the model's (entries 7, 15). -/
def Obligations.ResetAbandonsTheCommand : Prop :=
  ∀ (s : State) (rest : List Input), s.inputs = .resetAssert :: rest →
    ∃ t, step s = .next t ∧ t.opa = 0 ∧ t.opb = 0 ∧ t.opm = 0 ∧ t.result = 0 ∧ statusWord t = 0 ∧
      t.busy = false ∧ t.done = false ∧ t.inReset = true ∧ t.inputs = rest ∧
      (∀ a, hostAccess a t = .fault .hostAccessInReset) ∧
      (∀ rest', rest = .resetRelease :: rest' → step t = .next { t with inputs := rest', inReset := false }) ∧
      (∀ (k : Nat) (u : State), (∀ e ∈ rest.take k, e.startsNothing = true) → runN k t = .next u →
        u.result = 0 ∧ u.done = false ∧ u.busy = false)

/-- R32: the reset values the spec gives. -/
def Obligations.ResetValues : Prop :=
  State.reset.opa = 0 ∧ State.reset.opb = 0 ∧ State.reset.opm = 0 ∧ State.reset.result = 0 ∧
  State.reset.busy = false ∧ State.reset.done = false ∧ State.reset.cause = 0 ∧ State.reset.overrun = false ∧
  readSlot .status State.reset = 0 ∧ readSlot .cmd State.reset = 0

/-- R114: a command issued straight after reset: MULMOD and POWMOD complete with MODULUS_ZERO, SPRP with SPRP_DOMAIN. -/
def Obligations.CommandsRightAfterReset : Prop :=
  (∃ t, step (State.reset.withFetchWord 64 1) = .next t ∧ readSlot .status t = 0x22 ∧ t.result = 0) ∧
  (∃ t, step (State.reset.withFetchWord 64 2) = .next t ∧ readSlot .status t = 0x22 ∧ t.result = 0) ∧
  (∃ t, step (State.reset.withFetchWord 64 3) = .next t ∧ readSlot .status t = 0x32 ∧ t.result = 0)

/-! ### The arithmetic -/

/-- R72: the laws of mulmod. -/
def Obligations.MulmodIsExact : Prop :=
  ∀ a b m : Word, m ≠ 0 →
    (mulmod a b m).toNat < m.toNat ∧ (mulmod a b m).toNat ≤ 2 ^ 64 - 2 ∧
    (mulmod a b m).toNat = a.toNat * b.toNat % m.toNat ∧
    mulmod a b m = mulmod b a m ∧ mulmod a b m = mulmod (a % m) (b % m) m

/-- R73: multiplying by 1 reduces, and so does a MULMOD with OPB = 1. -/
def Obligations.MulmodByOneReduces : Prop :=
  (∀ a m : Word, m ≠ 0 → mulmod a 1 m = a % m) ∧
  (∀ s : State, s.busy = false → s.opm ≠ 0 → s.opb = 1 → ∃ t u, exec .mulmod s = .next t ∧ engineTurn t = .next u ∧
    u.cause = 0 ∧ u.result.toNat = s.opa.toNat % s.opm.toNat)

/-- R76: exponent zero gives 1 for every base and every modulus, also modulus 1; and no SPRP reaches the case. -/
def Obligations.PowmodOfExponentZeroIsOne : Prop :=
  (∀ a m : Word, m ≠ 0 → powmod a 0 m = 1) ∧
  (∀ n : Word, n.toNat % 2 = 1 → 3 < n.toNat → 1 ≤ (decompose n).1.toNat)

/-- R77: the laws of powmod, and that POWMOD's completion writes its value unchanged. -/
def Obligations.PowmodIsThePower : Prop :=
  (∀ a p m : Word, m ≠ 0 →
    (p ≠ 0 → (powmod a p m).toNat = a.toNat ^ p.toNat % m.toNat ∧ (powmod a p m).toNat < m.toNat) ∧
    (p = 0 → powmod a p m = 1) ∧
    powmod a p m = powmod (a % m) p m ∧ powmod a 1 m = a % m ∧ powmod a 2 m = mulmod a a m) ∧
  (∀ s : State, s.busy = true → s.lop = 2 → s.lm ≠ 0 →
    ∃ u, engineTurn s = .next u ∧ u.result = powmod s.la s.lb s.lm)

/-- R80: the decomposition of n - 1. -/
def Obligations.DecompositionOfCandidate : Prop :=
  ∀ n : Word, n.toNat % 2 = 1 → 3 < n.toNat →
    (decompose n).1.toNat * 2 ^ (decompose n).2 = n.toNat - 1 ∧
    (decompose n).1.toNat % 2 = 1 ∧ 1 ≤ (decompose n).1.toNat ∧ (decompose n).1.toNat ≤ 2 ^ 63 - 1 ∧
    1 ≤ (decompose n).2 ∧ (decompose n).2 ≤ 63 ∧ ((decompose n).2 = 63 ↔ n.toNat = 2 ^ 63 + 1)

/-- R84: the zero witness passes for every candidate; without the guard it would fail, since the power is 0 and stays 0. -/
def Obligations.ZeroWitnessPasses : Prop :=
  ∀ n : Word, n.toNat % 2 = 1 → 3 < n.toNat →
    sprp n 0 = true ∧ powmod 0 (decompose n).1 n = 0 ∧ squareLoop n (decompose n).2 0 = false

/-- R84, R85, R86, R87: the verdict, from the decomposition of the model: pass at the zero witness, at the first check, or
in some round below s; otherwise fail. -/
def Obligations.VerdictIsTheRoundCondition : Prop :=
  ∀ n a : Word, n.toNat % 2 = 1 → 3 < n.toNat → a.toNat < n.toNat →
    (sprp n a = true ↔ a = 0 ∨ a.toNat ^ (decompose n).1.toNat % n.toNat = 1 ∨
      ∃ r < (decompose n).2, a.toNat ^ ((decompose n).1.toNat * 2 ^ r) % n.toNat = n.toNat - 1)

/-- R88: the corner cases: a = 1 and a = n - 1 pass; a power that is n - 1 at round 0 passes; reaching 1 inside the loop
without passing through n - 1 fails. -/
def Obligations.WitnessCornerCases : Prop :=
  ∀ n : Word, n.toNat % 2 = 1 → 3 < n.toNat →
    sprp n 1 = true ∧ sprp n (n - 1) = true ∧
    (∀ a : Word, a.toNat < n.toNat → powmod a (decompose n).1 n = n - 1 → sprp n a = true) ∧
    (∀ (a : Word) (j : Nat), a ≠ 0 → a.toNat < n.toNat → 1 ≤ j → j < (decompose n).2 →
      powmod a (decompose n).1 n ≠ 1 → a.toNat ^ ((decompose n).1.toNat * 2 ^ j) % n.toNat = 1 →
      (∀ r < j, a.toNat ^ ((decompose n).1.toNat * 2 ^ r) % n.toNat ≠ n.toNat - 1) → sprp n a = false)

/-- R89: a prime candidate passes every admitted witness, so a fail proves the candidate composite; a pass proves nothing
about a composite, of which 2047 = 23 * 89 with witness 2 is an example. -/
def Obligations.PrimeCandidatePasses : Prop :=
  (∀ n a : Word, n.toNat % 2 = 1 → 3 < n.toNat → a.toNat < n.toNat →
    (Nat.Prime n.toNat → sprp n a = true) ∧ (sprp n a = false → ¬Nat.Prime n.toNat)) ∧
  (sprp 2047 2 = true ∧ ¬Nat.Prime 2047)

/-- R78: POWMOD's work: the counted loop gives powmod's value, with bitlen(p) squarings and popcount(p) multiplications, at
most 128; none for p = 0. -/
def Obligations.PowmodWork : Prop :=
  ∀ a p m : Word,
    (powmodCounted a p m).1 = powmod a p m ∧
    (powmodCounted a p m).2 = bitLength p + popCount p ∧
    bitLength p ≤ 64 ∧ (powmodCounted a p m).2 ≤ 128 ∧
    (p = 0 → (powmodCounted a p m).2 = 0) ∧
    (p ≠ 0 → 2 ^ (bitLength p - 1) ≤ p.toNat ∧ p.toNat < 2 ^ bitLength p)

/-- R90: SPRP's work: the counted test gives sprp's verdict, with at most 64 + popcount(d) mulmods, at most 127; none for
a = 0; and bitlen(d) + s = bitlen(n - 1), at most 64. -/
def Obligations.SprpWork : Prop :=
  ∀ n a : Word, n.toNat % 2 = 1 → 3 < n.toNat → a.toNat < n.toNat →
    (sprpCounted n a).1 = sprp n a ∧
    bitLength (decompose n).1 + (decompose n).2 = bitLength (n - 1) ∧ bitLength (n - 1) ≤ 64 ∧
    (sprpCounted n a).2 ≤ 64 + popCount (decompose n).1 ∧ 64 + popCount (decompose n).1 ≤ 127 ∧
    (a = 0 → (sprpCounted n a).2 = 0)

/-! ### The host notation -/

/-- R59: `wr R, v` performs MemWrite(off(R), 8, v) and `rd hX, R` performs hX <- MemRead(off(R), 8), each as one step of the
machine and one entry of the trace, from a CORE out of reset with no event waiting. -/
def Obligations.HostLinesPerformWindowAccesses : Prop :=
  ∀ (S : HostSystem) (r : Slot), S.core.inReset = false → S.core.inputs = [] →
    (∀ v : Word, ∃ c, step { S.core with inputs := [.host (.write r.offset 8 v)] } = .next c ∧
      S.perform (.wr r (.imm v)) =
        .next { S with core := c, line := S.line + 1, trace := S.trace ++ [.write r.offset v] }) ∧
    (∀ h : HostReg, S.perform (.rd h r) =
      .next { S with core := { S.core with response := .data (readSlot r S.core) }, line := S.line + 1, regs := S.regs.set h (some (readSlot r S.core)), trace := S.trace ++ [.read r.offset (readSlot r S.core)] }) ∧
    (∀ h : HostReg, S.regs[h] = none → S.perform (.wr r (.reg h)) = .fault (.unwrittenRegister h))
end

