-- ==== Sys2Proof/Laws/Arithmetic.lean ====
section
/-! SUPPORT. What the arithmetic functions compute, as statements about natural numbers: one lemma a loop. -/

namespace Sys2Proof.Machine

/-- `mulmod` is the exact product reduced: nothing is lost in the 128-bit product or in the narrowing. -/
theorem mulmod_toNat (a b m : Word) (hm : m ≠ 0) : (mulmod a b m).toNat = a.toNat * b.toNat % m.toNat := by
  have ha := a.isLt
  have hb := b.isLt
  have hml := m.isLt
  have hm0 : 0 < m.toNat := Nat.pos_of_ne_zero fun h => hm (BitVec.eq_of_toNat_eq h)
  have hp : a.toNat * b.toNat < 2 ^ 128 := by
    calc a.toNat * b.toNat < 2 ^ 64 * 2 ^ 64 := Nat.mul_lt_mul'' ha hb
      _ = 2 ^ 128 := by norm_num
  have hr : a.toNat * b.toNat % m.toNat < m.toNat := Nat.mod_lt _ hm0
  have h1 : a.toNat % 2 ^ 128 = a.toNat := Nat.mod_eq_of_lt (by omega)
  have h2 : b.toNat % 2 ^ 128 = b.toNat := Nat.mod_eq_of_lt (by omega)
  have h3 : m.toNat % 2 ^ 128 = m.toNat := Nat.mod_eq_of_lt (by omega)
  unfold mulmod
  simp only [BitVec.toNat_setWidth, BitVec.toNat_umod, BitVec.toNat_mul, h1, h2, h3, Nat.mod_eq_of_lt hp]
  exact Nat.mod_eq_of_lt (by omega)

/-- The exponent of the next iteration, and the bit just used. -/
theorem exponent_split (e : Word) : e.toNat = 2 * (e >>> 1).toNat + (e.getLsbD 0).toNat := by
  have : e.getLsbD 0 = decide (e.toNat % 2 = 1) := by
    rw [BitVec.getLsbD, Nat.testBit_zero]
  rw [this, BitVec.toNat_ushiftRight, Nat.shiftRight_eq_div_pow]
  by_cases h : e.toNat % 2 = 1 <;> simp [h] <;> omega

theorem eq_zero_of_toNat_lt_one {e : Word} (h : e.toNat < 2 ^ 0) : e = 0 :=
  BitVec.eq_of_toNat_eq (by simpa using h)

/-- The loop of R74 with exponent 0 returns the accumulator. -/
theorem powLoop_zero (m : Word) (fuel : Nat) (y base : Word) : powLoop m fuel y base 0 = y := by
  cases fuel <;> simp [powLoop]

/-- The loop of R74: accumulator times base to the exponent, reduced, as long as the exponent has at most `fuel` bits and
is not 0. -/
theorem powLoop_toNat (m : Word) (hm : m ≠ 0) (fuel : Nat) : ∀ y base e : Word, e.toNat < 2 ^ fuel → e ≠ 0 →
    (powLoop m fuel y base e).toNat = y.toNat * base.toNat ^ e.toNat % m.toNat := by
  induction fuel with
  | zero => exact fun y base e h he => absurd (eq_zero_of_toNat_lt_one h) he
  | succ fuel ih =>
    intro y base e h he
    have hs := exponent_split e
    have hlt : (e >>> 1).toNat < 2 ^ fuel := by
      rw [Nat.pow_succ] at h
      omega
    rw [powLoop, if_neg he]
    by_cases hz : e >>> 1 = 0
    · have h1 : (e.getLsbD 0) = true := by
        by_contra hb
        rw [hz, Bool.not_eq_true _ |>.mp hb] at hs
        exact he (BitVec.eq_of_toNat_eq (by simpa using hs))
      have he1 : e.toNat = 1 := by rw [hs, hz, h1]; rfl
      rw [hz, powLoop_zero, h1, if_pos rfl, mulmod_toNat _ _ _ hm, he1, Nat.pow_one]
    · rw [ih _ _ _ hlt hz, mulmod_toNat _ _ _ hm]
      have hsq : base.toNat ^ e.toNat
          = (base.toNat * base.toNat) ^ (e >>> 1).toNat * base.toNat ^ (e.getLsbD 0).toNat := by
        rw [← pow_two, ← pow_mul, ← pow_add, ← hs]
      rw [hsq]
      cases e.getLsbD 0
      · simp [Nat.mul_mod, Nat.pow_mod]
      · rw [if_pos rfl, mulmod_toNat _ _ _ hm]
        simp only [Bool.toNat_true, Nat.pow_one]
        rw [Nat.mul_mod, Nat.mod_mod, Nat.pow_mod, Nat.mod_mod, ← Nat.pow_mod, ← Nat.mul_mod]
        congr 1
        ring

/-- `powmod` for an exponent from 1 up. -/
theorem powmod_toNat (a p m : Word) (hm : m ≠ 0) (hp : p ≠ 0) :
    (powmod a p m).toNat = a.toNat ^ p.toNat % m.toNat := by
  rw [powmod, powLoop_toNat m hm 64 1 a p p.isLt hp]
  simp

/-! ### The decomposition of R80 -/

/-- Trailing zeros: the value shifted right is odd and gives the value back. -/
theorem trailingZeros_spec (fuel : Nat) : ∀ v : Word, v ≠ 0 → v.toNat < 2 ^ fuel →
    (v >>> trailingZeros fuel v).toNat % 2 = 1 ∧
      (v >>> trailingZeros fuel v).toNat * 2 ^ trailingZeros fuel v = v.toNat := by
  induction fuel with
  | zero => exact fun v hv h => absurd (eq_zero_of_toNat_lt_one h) hv
  | succ fuel ih =>
    intro v hv h
    have hs := exponent_split v
    rw [trailingZeros]
    by_cases hb : v.getLsbD 0 = true
    · rw [if_pos hb]
      rw [hb, Bool.toNat_true] at hs
      simp
      omega
    · rw [if_neg hb]
      rw [Bool.not_eq_true _ |>.mp hb, Bool.toNat_false, Nat.add_zero] at hs
      have hv' : v >>> 1 ≠ 0 := by
        intro hz
        rw [hz] at hs
        exact hv (BitVec.eq_of_toNat_eq (by simpa using hs))
      obtain ⟨h1, h2⟩ := ih (v >>> 1) hv' (by rw [Nat.pow_succ] at h; omega)
      have hsh : v >>> (trailingZeros fuel (v >>> 1) + 1) = (v >>> 1) >>> trailingZeros fuel (v >>> 1) := by
        rw [Nat.add_comm, BitVec.shiftRight_add]
      rw [hsh]
      refine ⟨h1, ?_⟩
      rw [Nat.pow_succ, ← Nat.mul_assoc, h2]
      omega

/-- `d` is odd and `d * 2^s = n - 1` (R80). -/
theorem decompose_spec (n : Word) (hn : 1 < n.toNat) :
    (decompose n).1.toNat % 2 = 1 ∧ (decompose n).1.toNat * 2 ^ (decompose n).2 = n.toNat - 1 := by
  have hlt := n.isLt
  have h1 : (n - 1).toNat = n.toNat - 1 := by
    rw [BitVec.toNat_sub]
    simp
    omega
  have hne : n - 1 ≠ 0 := by
    intro h
    rw [h] at h1
    simp at h1
    omega
  have := trailingZeros_spec 64 (n - 1) hne (n - 1).isLt
  rwa [h1] at this

/-- An odd factor and the power of two it leaves are determined by their product. -/
theorem odd_times_pow_two_unique {d₁ d₂ k₁ k₂ : Nat} (h₁ : d₁ % 2 = 1) (h₂ : d₂ % 2 = 1)
    (h : d₁ * 2 ^ k₁ = d₂ * 2 ^ k₂) : d₁ = d₂ ∧ k₁ = k₂ := by
  induction k₁ generalizing k₂ with
  | zero =>
    cases k₂ with
    | zero => simpa using h
    | succ k => rw [Nat.pow_succ, ← Nat.mul_assoc] at h; omega
  | succ k ih =>
    cases k₂ with
    | zero => rw [Nat.pow_succ, ← Nat.mul_assoc] at h; omega
    | succ k' =>
      rw [Nat.pow_succ, Nat.pow_succ, ← Nat.mul_assoc, ← Nat.mul_assoc] at h
      have := ih (k₂ := k') (by omega)
      omega

/-! ### The squaring loop of R86 -/

/-- The loop passes exactly when some round below `rounds` holds n - 1. -/
theorem squareLoop_iff (n : Word) (hn : 1 < n.toNat) (rounds : Nat) : ∀ ap : Word, ap.toNat < n.toNat →
    (squareLoop n rounds ap = true ↔ ∃ r < rounds, ap.toNat ^ 2 ^ r % n.toNat = n.toNat - 1) := by
  have hn0 : n ≠ 0 := by rintro rfl; simp at hn
  have hlt := n.isLt
  have h1 : (n - 1).toNat = n.toNat - 1 := by
    rw [BitVec.toNat_sub]
    simp
    omega
  induction rounds with
  | zero => simp [squareLoop]
  | succ rounds ih =>
    intro ap hap
    rw [squareLoop]
    by_cases he : ap = n - 1
    · simp only [he, if_true, true_iff]
      exact ⟨0, by omega, by rw [h1, Nat.pow_zero, Nat.pow_one]; exact Nat.mod_eq_of_lt (by omega)⟩
    · rw [if_neg he, ih _ (by rw [mulmod_toNat _ _ _ hn0]; exact Nat.mod_lt _ (by omega)), mulmod_toNat _ _ _ hn0]
      have hne : ap.toNat ≠ n.toNat - 1 := fun h => he (BitVec.eq_of_toNat_eq (by rw [h, h1]))
      have hstep : ∀ r, (ap.toNat * ap.toNat % n.toNat) ^ 2 ^ r % n.toNat = ap.toNat ^ 2 ^ (r + 1) % n.toNat := by
        intro r
        rw [← Nat.pow_mod, ← pow_two, ← pow_mul]
        congr 2
        ring
      constructor
      · rintro ⟨r, hr, h⟩
        exact ⟨r + 1, by omega, by rw [← hstep]; exact h⟩
      · rintro ⟨r, hr, h⟩
        cases r with
        | zero => rw [Nat.pow_zero, Nat.pow_one, Nat.mod_eq_of_lt hap] at h; exact absurd h hne
        | succ r => exact ⟨r, by omega, by rw [hstep]; exact h⟩

/-! ### The counted loops -/

/-- The counter changes nothing in the loop of R74. -/
theorem powLoopCounted_fst (m : Word) (fuel : Nat) : ∀ (y base e : Word) (c : Nat),
    (powLoopCounted m fuel y base e c).1 = powLoop m fuel y base e := by
  induction fuel with
  | zero => exact fun y base e c => rfl
  | succ fuel ih =>
    intro y base e c
    rw [powLoopCounted, powLoop]
    split
    · rfl
    · exact ih _ _ _ _

/-- The counter changes nothing in the loop of R86. -/
theorem squareLoopCounted_fst (n : Word) (rounds : Nat) : ∀ (ap : Word) (c : Nat),
    (squareLoopCounted n rounds ap c).1 = squareLoop n rounds ap := by
  induction rounds with
  | zero => exact fun ap c => rfl
  | succ rounds ih =>
    intro ap c
    rw [squareLoopCounted, squareLoop]
    split
    · rfl
    · exact ih _ _

/-- The loop of R86 makes at most one mulmod a round. -/
theorem squareLoopCounted_snd_le (n : Word) (rounds : Nat) : ∀ (ap : Word) (c : Nat),
    (squareLoopCounted n rounds ap c).2 ≤ c + rounds := by
  induction rounds with
  | zero => exact fun ap c => le_rfl
  | succ rounds ih =>
    intro ap c
    rw [squareLoopCounted]
    split
    · omega
    · exact (ih _ _).trans (by omega)

/-! ### Bit lengths and bit counts -/

theorem bitLength_shift (e : Word) (he : e ≠ 0) : bitLength e = bitLength (e >>> 1) + 1 := by
  have h2 : (e >>> 1).toNat = e.toNat / 2 := by simp [Nat.shiftRight_eq_div_pow]
  have h0 : e.toNat ≠ 0 := fun h => he (BitVec.eq_of_toNat_eq h)
  unfold bitLength
  rw [if_neg he]
  split
  · next h =>
    rw [h] at h2
    have h1 : e.toNat = 1 := by simp at h2; omega
    rw [h1]
    rfl
  · next h =>
    have hne : (e >>> 1).toNat ≠ 0 := fun h' => h (BitVec.eq_of_toNat_eq h')
    rw [h2, Nat.log2_def, if_pos (by omega)]

theorem popCount_shift (e : Word) : popCount e = popCount (e >>> 1) + (if e.getLsbD 0 then 1 else 0) := by
  have h63 : (e >>> 1).getLsbD 63 = false := by simp
  have htop : popCount (e >>> 1) = (List.range 63).countP (fun k => e.getLsbD (k + 1)) := by
    unfold popCount
    rw [show List.range 64 = List.range 63 ++ [63] from List.range_succ, List.countP_append, List.countP_singleton, h63]
    simp [Nat.add_comm]
  rw [htop]
  unfold popCount
  rw [show List.range 64 = 0 :: List.map Nat.succ (List.range 63) from List.range_succ_eq_map, List.countP_cons,
    List.countP_map]
  rfl

/-- A value lies between the powers of two its bit length gives. -/
theorem bitLength_bounds (p : Word) (hp : p ≠ 0) : 2 ^ (bitLength p - 1) ≤ p.toNat ∧ p.toNat < 2 ^ bitLength p := by
  have h0 : p.toNat ≠ 0 := fun h => hp (BitVec.eq_of_toNat_eq h)
  unfold bitLength
  rw [if_neg hp]
  exact ⟨by simpa using Nat.log2_self_le h0, Nat.lt_log2_self⟩

end Sys2Proof.Machine
end

