-- ==== Sys2Proof/Laws/Decode.lean ====
section
/-! SUPPORT. Small lemmas about the decoder, the encoder and the byte view of a word. -/

namespace Sys2Proof

theorem ofOpcode_opcode (i : Instr) : Instr.ofOpcode i.opcode = some i := by cases i <;> rfl

/-- The opcode map read backwards. -/
theorem opcode_of_ofOpcode {o : BitVec 8} {i : Instr} (h : Instr.ofOpcode o = some i) : o = i.opcode := by
  unfold Instr.ofOpcode at h
  split_ifs at h with h1 h2 h3 <;> cases h <;> assumption

/-- A word is put together from its two fields. -/
theorem word_eq_fields (w : Word) : w = (CommandWord.ofWord w).rsvd ++ (CommandWord.ofWord w).opcode := by
  apply BitVec.eq_of_getLsbD_eq
  intro k hk
  rw [BitVec.getLsbD_append]
  simp only [CommandWord.ofWord, bitField, BitVec.getLsbD_extractLsb']
  by_cases h8 : k < 8
  · simp [h8]
  · have h1 : k - 8 < 56 := by omega
    have h2 : 8 + (k - 8) = k := by omega
    simp [h8, h1, h2]

/-- A command's word is put together from its fields. -/
theorem encode_eq_fields (i : Instr) : encode i = i.fields.rsvd ++ i.fields.opcode := by cases i <;> rfl

/-- When the decoder answers a command: the reserved field is clear and the opcode is the command's. -/
theorem decode_eq_command_iff_fields (w : Word) (i : Instr) :
    decode w = .command i ↔ (CommandWord.ofWord w).rsvd = 0 ∧ (CommandWord.ofWord w).opcode = i.opcode := by
  unfold decode
  by_cases hr : (CommandWord.ofWord w).reservedClear = true
  · have hr' : (CommandWord.ofWord w).rsvd = 0 := by simpa [CommandWord.reservedClear] using hr
    simp only [hr, if_true, hr', true_and]
    constructor
    · intro h
      split at h
      · next j hj => cases h; exact opcode_of_ofOpcode hj
      · cases h
    · intro h
      rw [h, ofOpcode_opcode]
  · have hr' : (CommandWord.ofWord w).rsvd ≠ 0 := by simpa [CommandWord.reservedClear] using hr
    simp only [hr, if_false, hr', false_and, iff_false, Bool.false_eq_true]
    exact fun h => Decoded.noConfusion h

/-- A word that is not illegal is a command. -/
theorem decode_cases (w : Word) : (∃ i, decode w = .command i) ∨ ∃ why, decode w = .illegal why := by
  cases h : decode w with
  | command i => exact .inl ⟨i, rfl⟩
  | illegal why => exact .inr ⟨why, rfl⟩

/-- The opcode of a word that decodes is the word's low byte. -/
theorem opcode_of_decode {w : Word} {i : Instr} (h : decode w = .command i) : i.opcode = w.setWidth 8 := by
  have := ((decode_eq_command_iff_fields w i).1 h).2
  rw [← this]
  apply BitVec.eq_of_getLsbD_eq
  intro k hk
  simp [CommandWord.ofWord, bitField, hk]

/-- Byte k of a word as a number. -/
theorem byteOf_toNat (w : Word) (k : Nat) : (byteOf w k).toNat = w.toNat / 2 ^ (8 * k) % 2 ^ 8 := by
  simp [byteOf, bitField, BitVec.extractLsb'_toNat, Nat.shiftRight_eq_div_pow]

/-- A byte appended below a value, as a number. -/
theorem append_byte_toNat {n : Nat} (x : BitVec n) (b : Byte) : (x ++ b).toNat = 256 * x.toNat + b.toNat := by
  rw [BitVec.toNat_append, ← Nat.shiftLeft_add_eq_or_of_lt b.isLt, Nat.shiftLeft_eq]
  omega

/-- Eight bytes as a number, byte 0 the least significant. -/
theorem wordOfBytes_toNat (b0 b1 b2 b3 b4 b5 b6 b7 : Byte) :
    (wordOfBytes b0 b1 b2 b3 b4 b5 b6 b7).toNat = b0.toNat + 256 * (b1.toNat + 256 * (b2.toNat + 256 * (b3.toNat +
      256 * (b4.toNat + 256 * (b5.toNat + 256 * (b6.toNat + 256 * b7.toNat)))))) := by
  unfold wordOfBytes
  simp only [append_byte_toNat]
  omega

end Sys2Proof
end

