-- ==== Sys2Proof/Laws/State.lean ====
section
/-! SUPPORT. What each named operation over the state does to each field, one lemma a field, so that no proof unfolds a
record update. -/

namespace Sys2Proof.Machine

/-! ### respond r s -/

@[simp] theorem respond_opa (r : Response) (s : State) : (respond r s).opa = s.opa := rfl
@[simp] theorem respond_opb (r : Response) (s : State) : (respond r s).opb = s.opb := rfl
@[simp] theorem respond_opm (r : Response) (s : State) : (respond r s).opm = s.opm := rfl
@[simp] theorem respond_result (r : Response) (s : State) : (respond r s).result = s.result := rfl
@[simp] theorem respond_busy (r : Response) (s : State) : (respond r s).busy = s.busy := rfl
@[simp] theorem respond_done (r : Response) (s : State) : (respond r s).done = s.done := rfl
@[simp] theorem respond_cause (r : Response) (s : State) : (respond r s).cause = s.cause := rfl
@[simp] theorem respond_overrun (r : Response) (s : State) : (respond r s).overrun = s.overrun := rfl
@[simp] theorem respond_lop (r : Response) (s : State) : (respond r s).lop = s.lop := rfl
@[simp] theorem respond_la (r : Response) (s : State) : (respond r s).la = s.la := rfl
@[simp] theorem respond_lb (r : Response) (s : State) : (respond r s).lb = s.lb := rfl
@[simp] theorem respond_lm (r : Response) (s : State) : (respond r s).lm = s.lm := rfl
@[simp] theorem respond_inputs (r : Response) (s : State) : (respond r s).inputs = s.inputs := rfl
@[simp] theorem respond_inReset (r : Response) (s : State) : (respond r s).inReset = s.inReset := rfl
@[simp] theorem respond_response (r : Response) (s : State) : (respond r s).response = r := rfl
@[simp] theorem respond_hostFaults (r : Response) (s : State) : (respond r s).hostFaults = s.hostFaults := rfl

/-! ### recordFault f s -/

@[simp] theorem recordFault_opa (f : HostFault) (s : State) : (recordFault f s).opa = s.opa := rfl
@[simp] theorem recordFault_opb (f : HostFault) (s : State) : (recordFault f s).opb = s.opb := rfl
@[simp] theorem recordFault_opm (f : HostFault) (s : State) : (recordFault f s).opm = s.opm := rfl
@[simp] theorem recordFault_result (f : HostFault) (s : State) : (recordFault f s).result = s.result := rfl
@[simp] theorem recordFault_busy (f : HostFault) (s : State) : (recordFault f s).busy = s.busy := rfl
@[simp] theorem recordFault_done (f : HostFault) (s : State) : (recordFault f s).done = s.done := rfl
@[simp] theorem recordFault_cause (f : HostFault) (s : State) : (recordFault f s).cause = s.cause := rfl
@[simp] theorem recordFault_overrun (f : HostFault) (s : State) : (recordFault f s).overrun = s.overrun := rfl
@[simp] theorem recordFault_lop (f : HostFault) (s : State) : (recordFault f s).lop = s.lop := rfl
@[simp] theorem recordFault_la (f : HostFault) (s : State) : (recordFault f s).la = s.la := rfl
@[simp] theorem recordFault_lb (f : HostFault) (s : State) : (recordFault f s).lb = s.lb := rfl
@[simp] theorem recordFault_lm (f : HostFault) (s : State) : (recordFault f s).lm = s.lm := rfl
@[simp] theorem recordFault_inputs (f : HostFault) (s : State) : (recordFault f s).inputs = s.inputs := rfl
@[simp] theorem recordFault_inReset (f : HostFault) (s : State) : (recordFault f s).inReset = s.inReset := rfl
@[simp] theorem recordFault_response (f : HostFault) (s : State) : (recordFault f s).response = s.response := rfl
@[simp] theorem recordFault_hostFaults (f : HostFault) (s : State) : (recordFault f s).hostFaults = f :: s.hostFaults := rfl

/-! ### busError off s -/

@[simp] theorem busError_opa (off : Int) (s : State) : (busError off s).opa = s.opa := rfl
@[simp] theorem busError_opb (off : Int) (s : State) : (busError off s).opb = s.opb := rfl
@[simp] theorem busError_opm (off : Int) (s : State) : (busError off s).opm = s.opm := rfl
@[simp] theorem busError_result (off : Int) (s : State) : (busError off s).result = s.result := rfl
@[simp] theorem busError_busy (off : Int) (s : State) : (busError off s).busy = s.busy := rfl
@[simp] theorem busError_done (off : Int) (s : State) : (busError off s).done = s.done := rfl
@[simp] theorem busError_cause (off : Int) (s : State) : (busError off s).cause = s.cause := rfl
@[simp] theorem busError_overrun (off : Int) (s : State) : (busError off s).overrun = s.overrun := rfl
@[simp] theorem busError_lop (off : Int) (s : State) : (busError off s).lop = s.lop := rfl
@[simp] theorem busError_la (off : Int) (s : State) : (busError off s).la = s.la := rfl
@[simp] theorem busError_lb (off : Int) (s : State) : (busError off s).lb = s.lb := rfl
@[simp] theorem busError_lm (off : Int) (s : State) : (busError off s).lm = s.lm := rfl
@[simp] theorem busError_inputs (off : Int) (s : State) : (busError off s).inputs = s.inputs := rfl
@[simp] theorem busError_inReset (off : Int) (s : State) : (busError off s).inReset = s.inReset := rfl
@[simp] theorem busError_response (off : Int) (s : State) : (busError off s).response = .busError off := rfl
@[simp] theorem busError_hostFaults (off : Int) (s : State) : (busError off s).hostFaults = .busError off :: s.hostFaults := rfl

/-! ### complete (.success v) s -/

@[simp] theorem complete_success_opa (v : Word) (s : State) : (complete (.success v) s).opa = s.opa := rfl
@[simp] theorem complete_success_opb (v : Word) (s : State) : (complete (.success v) s).opb = s.opb := rfl
@[simp] theorem complete_success_opm (v : Word) (s : State) : (complete (.success v) s).opm = s.opm := rfl
@[simp] theorem complete_success_result (v : Word) (s : State) : (complete (.success v) s).result = v := rfl
@[simp] theorem complete_success_busy (v : Word) (s : State) : (complete (.success v) s).busy = false := rfl
@[simp] theorem complete_success_done (v : Word) (s : State) : (complete (.success v) s).done = true := rfl
@[simp] theorem complete_success_cause (v : Word) (s : State) : (complete (.success v) s).cause = 0 := rfl
@[simp] theorem complete_success_overrun (v : Word) (s : State) : (complete (.success v) s).overrun = s.overrun := rfl
@[simp] theorem complete_success_lop (v : Word) (s : State) : (complete (.success v) s).lop = s.lop := rfl
@[simp] theorem complete_success_la (v : Word) (s : State) : (complete (.success v) s).la = s.la := rfl
@[simp] theorem complete_success_lb (v : Word) (s : State) : (complete (.success v) s).lb = s.lb := rfl
@[simp] theorem complete_success_lm (v : Word) (s : State) : (complete (.success v) s).lm = s.lm := rfl
@[simp] theorem complete_success_inputs (v : Word) (s : State) : (complete (.success v) s).inputs = s.inputs := rfl
@[simp] theorem complete_success_inReset (v : Word) (s : State) : (complete (.success v) s).inReset = s.inReset := rfl
@[simp] theorem complete_success_response (v : Word) (s : State) : (complete (.success v) s).response = s.response := rfl
@[simp] theorem complete_success_hostFaults (v : Word) (s : State) : (complete (.success v) s).hostFaults = s.hostFaults := rfl

/-! ### complete (.error e) s -/

@[simp] theorem complete_error_opa (e : ErrorCause) (s : State) : (complete (.error e) s).opa = s.opa := rfl
@[simp] theorem complete_error_opb (e : ErrorCause) (s : State) : (complete (.error e) s).opb = s.opb := rfl
@[simp] theorem complete_error_opm (e : ErrorCause) (s : State) : (complete (.error e) s).opm = s.opm := rfl
@[simp] theorem complete_error_result (e : ErrorCause) (s : State) : (complete (.error e) s).result = s.result := rfl
@[simp] theorem complete_error_busy (e : ErrorCause) (s : State) : (complete (.error e) s).busy = false := rfl
@[simp] theorem complete_error_done (e : ErrorCause) (s : State) : (complete (.error e) s).done = true := rfl
@[simp] theorem complete_error_cause (e : ErrorCause) (s : State) : (complete (.error e) s).cause = e.code := rfl
@[simp] theorem complete_error_overrun (e : ErrorCause) (s : State) : (complete (.error e) s).overrun = s.overrun := rfl
@[simp] theorem complete_error_lop (e : ErrorCause) (s : State) : (complete (.error e) s).lop = s.lop := rfl
@[simp] theorem complete_error_la (e : ErrorCause) (s : State) : (complete (.error e) s).la = s.la := rfl
@[simp] theorem complete_error_lb (e : ErrorCause) (s : State) : (complete (.error e) s).lb = s.lb := rfl
@[simp] theorem complete_error_lm (e : ErrorCause) (s : State) : (complete (.error e) s).lm = s.lm := rfl
@[simp] theorem complete_error_inputs (e : ErrorCause) (s : State) : (complete (.error e) s).inputs = s.inputs := rfl
@[simp] theorem complete_error_inReset (e : ErrorCause) (s : State) : (complete (.error e) s).inReset = s.inReset := rfl
@[simp] theorem complete_error_response (e : ErrorCause) (s : State) : (complete (.error e) s).response = s.response := rfl
@[simp] theorem complete_error_hostFaults (e : ErrorCause) (s : State) : (complete (.error e) s).hostFaults = .errorCompletion e :: s.hostFaults := rfl

/-! ### accept i s -/

@[simp] theorem accept_opa (i : Instr) (s : State) : (accept i s).opa = s.opa := rfl
@[simp] theorem accept_opb (i : Instr) (s : State) : (accept i s).opb = s.opb := rfl
@[simp] theorem accept_opm (i : Instr) (s : State) : (accept i s).opm = s.opm := rfl
@[simp] theorem accept_result (i : Instr) (s : State) : (accept i s).result = s.result := rfl
@[simp] theorem accept_busy (i : Instr) (s : State) : (accept i s).busy = true := rfl
@[simp] theorem accept_done (i : Instr) (s : State) : (accept i s).done = false := rfl
@[simp] theorem accept_cause (i : Instr) (s : State) : (accept i s).cause = s.cause := rfl
@[simp] theorem accept_overrun (i : Instr) (s : State) : (accept i s).overrun = s.overrun := rfl
@[simp] theorem accept_lop (i : Instr) (s : State) : (accept i s).lop = i.opcode := rfl
@[simp] theorem accept_la (i : Instr) (s : State) : (accept i s).la = s.opa := rfl
@[simp] theorem accept_lb (i : Instr) (s : State) : (accept i s).lb = s.opb := rfl
@[simp] theorem accept_lm (i : Instr) (s : State) : (accept i s).lm = s.opm := rfl
@[simp] theorem accept_inputs (i : Instr) (s : State) : (accept i s).inputs = s.inputs := rfl
@[simp] theorem accept_inReset (i : Instr) (s : State) : (accept i s).inReset = s.inReset := rfl
@[simp] theorem accept_response (i : Instr) (s : State) : (accept i s).response = s.response := rfl
@[simp] theorem accept_hostFaults (i : Instr) (s : State) : (accept i s).hostFaults = s.hostFaults := rfl

/-! ### overrunWrite s -/

@[simp] theorem overrunWrite_opa (s : State) : (overrunWrite s).opa = s.opa := rfl
@[simp] theorem overrunWrite_opb (s : State) : (overrunWrite s).opb = s.opb := rfl
@[simp] theorem overrunWrite_opm (s : State) : (overrunWrite s).opm = s.opm := rfl
@[simp] theorem overrunWrite_result (s : State) : (overrunWrite s).result = s.result := rfl
@[simp] theorem overrunWrite_busy (s : State) : (overrunWrite s).busy = s.busy := rfl
@[simp] theorem overrunWrite_done (s : State) : (overrunWrite s).done = s.done := rfl
@[simp] theorem overrunWrite_cause (s : State) : (overrunWrite s).cause = s.cause := rfl
@[simp] theorem overrunWrite_overrun (s : State) : (overrunWrite s).overrun = true := rfl
@[simp] theorem overrunWrite_lop (s : State) : (overrunWrite s).lop = s.lop := rfl
@[simp] theorem overrunWrite_la (s : State) : (overrunWrite s).la = s.la := rfl
@[simp] theorem overrunWrite_lb (s : State) : (overrunWrite s).lb = s.lb := rfl
@[simp] theorem overrunWrite_lm (s : State) : (overrunWrite s).lm = s.lm := rfl
@[simp] theorem overrunWrite_inputs (s : State) : (overrunWrite s).inputs = s.inputs := rfl
@[simp] theorem overrunWrite_inReset (s : State) : (overrunWrite s).inReset = s.inReset := rfl
@[simp] theorem overrunWrite_response (s : State) : (overrunWrite s).response = s.response := rfl
@[simp] theorem overrunWrite_hostFaults (s : State) : (overrunWrite s).hostFaults = .overrun :: s.hostFaults := rfl

/-! ### setOpa v s -/

@[simp] theorem setOpa_opa (v : Word) (s : State) : (setOpa v s).opa = v := rfl
@[simp] theorem setOpa_opb (v : Word) (s : State) : (setOpa v s).opb = s.opb := rfl
@[simp] theorem setOpa_opm (v : Word) (s : State) : (setOpa v s).opm = s.opm := rfl
@[simp] theorem setOpa_result (v : Word) (s : State) : (setOpa v s).result = s.result := rfl
@[simp] theorem setOpa_busy (v : Word) (s : State) : (setOpa v s).busy = s.busy := rfl
@[simp] theorem setOpa_done (v : Word) (s : State) : (setOpa v s).done = s.done := rfl
@[simp] theorem setOpa_cause (v : Word) (s : State) : (setOpa v s).cause = s.cause := rfl
@[simp] theorem setOpa_overrun (v : Word) (s : State) : (setOpa v s).overrun = s.overrun := rfl
@[simp] theorem setOpa_lop (v : Word) (s : State) : (setOpa v s).lop = s.lop := rfl
@[simp] theorem setOpa_la (v : Word) (s : State) : (setOpa v s).la = s.la := rfl
@[simp] theorem setOpa_lb (v : Word) (s : State) : (setOpa v s).lb = s.lb := rfl
@[simp] theorem setOpa_lm (v : Word) (s : State) : (setOpa v s).lm = s.lm := rfl
@[simp] theorem setOpa_inputs (v : Word) (s : State) : (setOpa v s).inputs = s.inputs := rfl
@[simp] theorem setOpa_inReset (v : Word) (s : State) : (setOpa v s).inReset = s.inReset := rfl
@[simp] theorem setOpa_response (v : Word) (s : State) : (setOpa v s).response = s.response := rfl
@[simp] theorem setOpa_hostFaults (v : Word) (s : State) : (setOpa v s).hostFaults = s.hostFaults := rfl

/-! ### setOpb v s -/

@[simp] theorem setOpb_opa (v : Word) (s : State) : (setOpb v s).opa = s.opa := rfl
@[simp] theorem setOpb_opb (v : Word) (s : State) : (setOpb v s).opb = v := rfl
@[simp] theorem setOpb_opm (v : Word) (s : State) : (setOpb v s).opm = s.opm := rfl
@[simp] theorem setOpb_result (v : Word) (s : State) : (setOpb v s).result = s.result := rfl
@[simp] theorem setOpb_busy (v : Word) (s : State) : (setOpb v s).busy = s.busy := rfl
@[simp] theorem setOpb_done (v : Word) (s : State) : (setOpb v s).done = s.done := rfl
@[simp] theorem setOpb_cause (v : Word) (s : State) : (setOpb v s).cause = s.cause := rfl
@[simp] theorem setOpb_overrun (v : Word) (s : State) : (setOpb v s).overrun = s.overrun := rfl
@[simp] theorem setOpb_lop (v : Word) (s : State) : (setOpb v s).lop = s.lop := rfl
@[simp] theorem setOpb_la (v : Word) (s : State) : (setOpb v s).la = s.la := rfl
@[simp] theorem setOpb_lb (v : Word) (s : State) : (setOpb v s).lb = s.lb := rfl
@[simp] theorem setOpb_lm (v : Word) (s : State) : (setOpb v s).lm = s.lm := rfl
@[simp] theorem setOpb_inputs (v : Word) (s : State) : (setOpb v s).inputs = s.inputs := rfl
@[simp] theorem setOpb_inReset (v : Word) (s : State) : (setOpb v s).inReset = s.inReset := rfl
@[simp] theorem setOpb_response (v : Word) (s : State) : (setOpb v s).response = s.response := rfl
@[simp] theorem setOpb_hostFaults (v : Word) (s : State) : (setOpb v s).hostFaults = s.hostFaults := rfl

/-! ### setOpm v s -/

@[simp] theorem setOpm_opa (v : Word) (s : State) : (setOpm v s).opa = s.opa := rfl
@[simp] theorem setOpm_opb (v : Word) (s : State) : (setOpm v s).opb = s.opb := rfl
@[simp] theorem setOpm_opm (v : Word) (s : State) : (setOpm v s).opm = v := rfl
@[simp] theorem setOpm_result (v : Word) (s : State) : (setOpm v s).result = s.result := rfl
@[simp] theorem setOpm_busy (v : Word) (s : State) : (setOpm v s).busy = s.busy := rfl
@[simp] theorem setOpm_done (v : Word) (s : State) : (setOpm v s).done = s.done := rfl
@[simp] theorem setOpm_cause (v : Word) (s : State) : (setOpm v s).cause = s.cause := rfl
@[simp] theorem setOpm_overrun (v : Word) (s : State) : (setOpm v s).overrun = s.overrun := rfl
@[simp] theorem setOpm_lop (v : Word) (s : State) : (setOpm v s).lop = s.lop := rfl
@[simp] theorem setOpm_la (v : Word) (s : State) : (setOpm v s).la = s.la := rfl
@[simp] theorem setOpm_lb (v : Word) (s : State) : (setOpm v s).lb = s.lb := rfl
@[simp] theorem setOpm_lm (v : Word) (s : State) : (setOpm v s).lm = s.lm := rfl
@[simp] theorem setOpm_inputs (v : Word) (s : State) : (setOpm v s).inputs = s.inputs := rfl
@[simp] theorem setOpm_inReset (v : Word) (s : State) : (setOpm v s).inReset = s.inReset := rfl
@[simp] theorem setOpm_response (v : Word) (s : State) : (setOpm v s).response = s.response := rfl
@[simp] theorem setOpm_hostFaults (v : Word) (s : State) : (setOpm v s).hostFaults = s.hostFaults := rfl

/-! ### writeStatus v s -/

@[simp] theorem writeStatus_opa (v : Word) (s : State) : (writeStatus v s).opa = s.opa := rfl
@[simp] theorem writeStatus_opb (v : Word) (s : State) : (writeStatus v s).opb = s.opb := rfl
@[simp] theorem writeStatus_opm (v : Word) (s : State) : (writeStatus v s).opm = s.opm := rfl
@[simp] theorem writeStatus_result (v : Word) (s : State) : (writeStatus v s).result = s.result := rfl
@[simp] theorem writeStatus_busy (v : Word) (s : State) : (writeStatus v s).busy = s.busy := rfl
@[simp] theorem writeStatus_done (v : Word) (s : State) : (writeStatus v s).done = s.done := rfl
@[simp] theorem writeStatus_cause (v : Word) (s : State) : (writeStatus v s).cause = s.cause := rfl
@[simp] theorem writeStatus_overrun (v : Word) (s : State) : (writeStatus v s).overrun = overrunAfterWrite v s.overrun := rfl
@[simp] theorem writeStatus_lop (v : Word) (s : State) : (writeStatus v s).lop = s.lop := rfl
@[simp] theorem writeStatus_la (v : Word) (s : State) : (writeStatus v s).la = s.la := rfl
@[simp] theorem writeStatus_lb (v : Word) (s : State) : (writeStatus v s).lb = s.lb := rfl
@[simp] theorem writeStatus_lm (v : Word) (s : State) : (writeStatus v s).lm = s.lm := rfl
@[simp] theorem writeStatus_inputs (v : Word) (s : State) : (writeStatus v s).inputs = s.inputs := rfl
@[simp] theorem writeStatus_inReset (v : Word) (s : State) : (writeStatus v s).inReset = s.inReset := rfl
@[simp] theorem writeStatus_response (v : Word) (s : State) : (writeStatus v s).response = s.response := rfl
@[simp] theorem writeStatus_hostFaults (v : Word) (s : State) : (writeStatus v s).hostFaults = s.hostFaults := rfl

/-! ### assertReset s -/

@[simp] theorem assertReset_opa (s : State) : (assertReset s).opa = 0 := rfl
@[simp] theorem assertReset_opb (s : State) : (assertReset s).opb = 0 := rfl
@[simp] theorem assertReset_opm (s : State) : (assertReset s).opm = 0 := rfl
@[simp] theorem assertReset_result (s : State) : (assertReset s).result = 0 := rfl
@[simp] theorem assertReset_busy (s : State) : (assertReset s).busy = false := rfl
@[simp] theorem assertReset_done (s : State) : (assertReset s).done = false := rfl
@[simp] theorem assertReset_cause (s : State) : (assertReset s).cause = 0 := rfl
@[simp] theorem assertReset_overrun (s : State) : (assertReset s).overrun = false := rfl
@[simp] theorem assertReset_lop (s : State) : (assertReset s).lop = 0 := rfl
@[simp] theorem assertReset_la (s : State) : (assertReset s).la = 0 := rfl
@[simp] theorem assertReset_lb (s : State) : (assertReset s).lb = 0 := rfl
@[simp] theorem assertReset_lm (s : State) : (assertReset s).lm = 0 := rfl
@[simp] theorem assertReset_inputs (s : State) : (assertReset s).inputs = s.inputs := rfl
@[simp] theorem assertReset_inReset (s : State) : (assertReset s).inReset = true := rfl
@[simp] theorem assertReset_response (s : State) : (assertReset s).response = .none := rfl
@[simp] theorem assertReset_hostFaults (s : State) : (assertReset s).hostFaults = s.hostFaults := rfl

/-! ### releaseReset s -/

@[simp] theorem releaseReset_opa (s : State) : (releaseReset s).opa = s.opa := rfl
@[simp] theorem releaseReset_opb (s : State) : (releaseReset s).opb = s.opb := rfl
@[simp] theorem releaseReset_opm (s : State) : (releaseReset s).opm = s.opm := rfl
@[simp] theorem releaseReset_result (s : State) : (releaseReset s).result = s.result := rfl
@[simp] theorem releaseReset_busy (s : State) : (releaseReset s).busy = s.busy := rfl
@[simp] theorem releaseReset_done (s : State) : (releaseReset s).done = s.done := rfl
@[simp] theorem releaseReset_cause (s : State) : (releaseReset s).cause = s.cause := rfl
@[simp] theorem releaseReset_overrun (s : State) : (releaseReset s).overrun = s.overrun := rfl
@[simp] theorem releaseReset_lop (s : State) : (releaseReset s).lop = s.lop := rfl
@[simp] theorem releaseReset_la (s : State) : (releaseReset s).la = s.la := rfl
@[simp] theorem releaseReset_lb (s : State) : (releaseReset s).lb = s.lb := rfl
@[simp] theorem releaseReset_lm (s : State) : (releaseReset s).lm = s.lm := rfl
@[simp] theorem releaseReset_inputs (s : State) : (releaseReset s).inputs = s.inputs := rfl
@[simp] theorem releaseReset_inReset (s : State) : (releaseReset s).inReset = false := rfl
@[simp] theorem releaseReset_response (s : State) : (releaseReset s).response = s.response := rfl
@[simp] theorem releaseReset_hostFaults (s : State) : (releaseReset s).hostFaults = s.hostFaults := rfl

end Sys2Proof.Machine
end

