-- ==== Sys2Proof/Laws/Window.lean ====
section
/-! SUPPORT. Small lemmas about the register window: admission, places and STATUS. -/

namespace Sys2Proof.Machine

theorem admitted_iff (off : Int) (n : Nat) :
    admitted off n = true ↔ n = 8 ∧ off % 8 = 0 ∧ 0 ≤ off ∧ off ≤ 0x38 := by
  unfold admitted Config.portBytes Config.lastOffset
  simp only [Bool.and_eq_true, beq_iff_eq, decide_eq_true_eq, and_assoc]

theorem admitted_offset (r : Slot) : admitted r.offset 8 = true := by cases r <;> decide

theorem ofOffset_offset (r : Slot) : Slot.ofOffset r.offset = some r := by cases r <;> decide

theorem offset_of_ofOffset {off : Int} {r : Slot} (h : Slot.ofOffset off = some r) : off = r.offset := by
  unfold Slot.ofOffset at h
  split_ifs at h <;> cases h <;> assumption

@[simp] theorem slotAt_offset (r : Slot) : slotAt r.offset 8 = some r := by
  simp [slotAt, admitted_offset, ofOffset_offset]

/-- An access reaches a place only at that place's offset, with 8 bytes. -/
theorem slotAt_eq_some {off : Int} {n : Nat} {r : Slot} (h : slotAt off n = some r) : off = r.offset ∧ n = 8 := by
  unfold slotAt at h
  split at h
  · next ha => exact ⟨offset_of_ofOffset h, ((admitted_iff off n).1 ha).1⟩
  · cases h

/-- An admitted access reaches a place. -/
theorem slotAt_of_admitted {off : Int} {n : Nat} (h : admitted off n = true) : ∃ r, slotAt off n = some r := by
  obtain ⟨rfl, h8, h0, h38⟩ := (admitted_iff off n).1 h
  have : off = 0 ∨ off = 8 ∨ off = 16 ∨ off = 24 ∨ off = 32 ∨ off = 40 ∨ off = 48 ∨ off = 56 := by omega
  rcases this with rfl | rfl | rfl | rfl | rfl | rfl | rfl | rfl
  · exact ⟨.opa, rfl⟩
  · exact ⟨.opb, rfl⟩
  · exact ⟨.opm, rfl⟩
  · exact ⟨.cmd, rfl⟩
  · exact ⟨.status, rfl⟩
  · exact ⟨.result, rfl⟩
  · exact ⟨.reserved30, rfl⟩
  · exact ⟨.reserved38, rfl⟩

theorem slotAt_eq_none {off : Int} {n : Nat} (h : ¬admitted off n = true) : slotAt off n = none := by
  simp [slotAt, h]

/-- A read depends on the registers of the window only. -/
theorem readSlot_congr {s t : State} (ha : t.opa = s.opa) (hb : t.opb = s.opb) (hm : t.opm = s.opm)
    (hr : t.result = s.result) (hst : statusWord t = statusWord s) (r : Slot) : readSlot r t = readSlot r s := by
  cases r <;> simp [readSlot, *]

/-- STATUS depends on its four fields only. -/
theorem statusWord_congr {s t : State} (hb : t.busy = s.busy) (hd : t.done = s.done) (hc : t.cause = s.cause)
    (ho : t.overrun = s.overrun) : statusWord t = statusWord s := by
  simp [statusWord, *]

/-- The word of R40 as a number, for every value of its four fields. -/
theorem statusFields_toNat : ∀ (o d b : Bool) (c : BitVec 4),
    (0#55 ++ BitVec.ofBool o ++ c ++ 0#2 ++ BitVec.ofBool d ++ BitVec.ofBool b).toNat =
      256 * o.toNat + 16 * c.toNat + 2 * d.toNat + b.toNat := by decide

/-- STATUS as a number. -/
theorem statusWord_toNat (s : State) :
    (statusWord s).toNat = 256 * s.overrun.toNat + 16 * s.cause.toNat + 2 * s.done.toNat + s.busy.toNat :=
  statusFields_toNat s.overrun s.done s.busy s.cause

end Sys2Proof.Machine
end

