-- ==== Sys2Proof/Laws/Ops.lean ====
section
/-! SUPPORT. One lemma for each shared operation: everything it can do. -/

namespace Sys2Proof.Machine

/-- Everything the CMD write of a command can do. -/
theorem issue_cases (i : Instr) (check : Option ErrorCause) (s : State) :
    (s.busy = true ∧ issue i check s = overrunWrite s) ∨
    (s.busy = false ∧ ∃ e, check = some e ∧ issue i check s = complete (.error e) s) ∨
    (s.busy = false ∧ check = none ∧ issue i check s = accept i s) := by
  unfold issue
  cases hb : s.busy
  · cases check with
    | none => exact .inr (.inr ⟨rfl, rfl, rfl⟩)
    | some e => exact .inr (.inl ⟨rfl, e, rfl, rfl⟩)
  · exact .inl ⟨rfl, rfl⟩

/-- Each command's meaning is the shared CMD write with its own operand check. -/
theorem exec_eq_issue (i : Instr) (s : State) : exec i s = .next (issue i (operandCheck i s.opa s.opm) s) := by
  cases i <;> rfl

/-- The CMD write always answers a next state. -/
theorem exec_next (i : Instr) (s : State) : ∃ t, exec i s = .next t := ⟨_, exec_eq_issue i s⟩

theorem exec_busy (i : Instr) {s : State} (hb : s.busy = true) : exec i s = .next (overrunWrite s) := by
  rw [exec_eq_issue]
  unfold issue
  rw [if_pos hb]

theorem exec_accept (i : Instr) {s : State} (hb : s.busy = false) (hc : operandCheck i s.opa s.opm = none) :
    exec i s = .next (accept i s) := by
  rw [exec_eq_issue, hc]
  unfold issue
  simp [hb]

theorem exec_error (i : Instr) {s : State} {e : ErrorCause} (hb : s.busy = false)
    (hc : operandCheck i s.opa s.opm = some e) : exec i s = .next (complete (.error e) s) := by
  rw [exec_eq_issue, hc]
  unfold issue
  simp [hb]

/-- A CMD write that leaves the CORE busy where it was idle has accepted. -/
theorem exec_accepted {i : Instr} {s t : State} (hb : s.busy = false) (h : exec i s = .next t) (ht : t.busy = true) :
    operandCheck i s.opa s.opm = none ∧ t = accept i s := by
  rw [exec_eq_issue] at h
  obtain rfl := Host.Outcome.next.inj h
  rcases issue_cases i (operandCheck i s.opa s.opm) s with ⟨h1, -⟩ | ⟨-, e, -, h3⟩ | ⟨-, h2, h3⟩
  · simp [hb] at h1
  · simp [h3] at ht
  · exact ⟨h2, h3⟩

/-! ### The operand checks as facts about numbers -/

theorem modulusCheck_none {m : Word} : modulusCheck m = none ↔ m ≠ 0 := by
  unfold modulusCheck
  split <;> simp_all

theorem modulusCheck_cases (m : Word) : (m = 0 ∧ modulusCheck m = some .modulusZero) ∨ (m ≠ 0 ∧ modulusCheck m = none) := by
  unfold modulusCheck
  split <;> simp_all

theorem inSprpDomain_iff (n a : Word) :
    inSprpDomain n a = true ↔ n.toNat % 2 = 1 ∧ 3 < n.toNat ∧ a.toNat < n.toNat := by
  have h2 : (n % 2 == 1) = true ↔ n.toNat % 2 = 1 := by
    rw [beq_iff_eq, ← BitVec.toNat_inj, BitVec.toNat_umod]
    rfl
  unfold inSprpDomain
  simp only [Bool.and_eq_true, decide_eq_true_eq, h2, and_assoc, BitVec.lt_def]
  rfl

theorem sprpCheck_cases (n a : Word) :
    (¬(n.toNat % 2 = 1 ∧ 3 < n.toNat ∧ a.toNat < n.toNat) ∧ sprpCheck n a = some .sprpDomain) ∨
    ((n.toNat % 2 = 1 ∧ 3 < n.toNat ∧ a.toNat < n.toNat) ∧ sprpCheck n a = none) := by
  rw [← inSprpDomain_iff]
  unfold sprpCheck
  split <;> simp_all

/-- The operand check answers at most the command's own error. -/
theorem operandCheck_none_modulus {i : Instr} {a m : Word} (h : operandCheck i a m = none) : m ≠ 0 := by
  cases i with
  | mulmod => exact modulusCheck_none.1 h
  | powmod => exact modulusCheck_none.1 h
  | sprp =>
    rcases sprpCheck_cases m a with ⟨-, h'⟩ | ⟨⟨-, h', -⟩, -⟩
    · exact absurd (h.symm.trans h') (by simp)
    · rintro rfl
      simp at h'

/-! ### The engine -/

/-- Everything the completion step can do. -/
theorem engineComplete_cases {s t : State} (h : engineComplete s = .next t) :
    ∃ i, Instr.ofOpcode s.lop = some i ∧ operandCheck i s.la s.lm = none ∧
      t = complete (.success (resultOf i s)) s := by
  unfold engineComplete at h
  split at h
  · cases h
  · next i hi =>
    split at h
    · next hc => exact ⟨i, hi, by simpa using hc, (Host.Outcome.next.inj h).symm⟩
    · cases h

theorem engineComplete_next {s : State} {i : Instr} (hi : Instr.ofOpcode s.lop = some i)
    (hc : operandCheck i s.la s.lm = none) : engineComplete s = .next (complete (.success (resultOf i s)) s) := by
  simp [engineComplete, hi, hc]

/-- A command just accepted completes with the value of the operand registers it latched. -/
theorem engineComplete_of_latched {s : State} {i : Instr} (hl : s.lop = i.opcode)
    (hc : operandCheck i s.la s.lm = none) : engineComplete s = .next (complete (.success (resultOf i s)) s) :=
  engineComplete_next (by rw [hl, ofOpcode_opcode]) hc

/-- In a busy state whose latches are one of the commands' in its domain, the engine's turn completes it. -/
theorem engineTurn_of_latched {s : State} {i : Instr} (hb : s.busy = true) (hl : s.lop = i.opcode)
    (hc : operandCheck i s.la s.lm = none) : engineTurn s = .next (complete (.success (resultOf i s)) s) := by
  unfold engineTurn
  rw [if_pos hb]
  exact engineComplete_of_latched hl hc

theorem engineTurn_idle {s : State} (hb : s.busy = false) : engineTurn s = .next s := by
  simp [engineTurn, hb]

/-- The completion step is never refused. -/
theorem engineTurn_ne_refused (s : State) (r : Refusal) : engineTurn s ≠ .refused r := by
  unfold engineTurn engineComplete
  split
  · split
    · simp
    · split <;> simp
  · simp

/-! ### The host port -/

/-- The error a CMD write while idle completes with: the word is illegal, or its command's operand check answers. -/
def RefusedWith (w a m : Word) (e : ErrorCause) : Prop :=
  ((∃ why, decode w = .illegal why) ∧ e = .illegalCmd) ∨ ∃ i, decode w = .command i ∧ operandCheck i a m = some e

theorem commandWrite_refused {w : Word} {s : State} {e : ErrorCause} (hb : s.busy = false)
    (h : RefusedWith w s.opa s.opm e) : commandWrite w s = .next (complete (.error e) s) := by
  unfold commandWrite
  rw [if_neg (by simp [hb])]
  rcases h with ⟨⟨why, hw⟩, rfl⟩ | ⟨i, hi, hc⟩
  · rw [hw]
  · rw [hi]
    exact exec_error i hb hc

/-- Everything a CMD write of a word can do. -/
theorem commandWrite_cases (w : Word) (s : State) :
    (s.busy = true ∧ commandWrite w s = .next (overrunWrite s)) ∨
    (s.busy = false ∧ ∃ e, RefusedWith w s.opa s.opm e ∧ commandWrite w s = .next (complete (.error e) s)) ∨
    (s.busy = false ∧ ∃ i, decode w = .command i ∧ operandCheck i s.opa s.opm = none ∧
      commandWrite w s = .next (accept i s)) := by
  cases hb : s.busy
  · right
    rcases decode_cases w with ⟨i, hi⟩ | ⟨why, hw⟩
    · cases hc : operandCheck i s.opa s.opm with
      | none => exact .inr ⟨rfl, i, hi, hc, by simp [commandWrite, hb, hi, exec_accept i hb hc]⟩
      | some e =>
        have hr : RefusedWith w s.opa s.opm e := .inr ⟨i, hi, hc⟩
        exact .inl ⟨rfl, e, hr, commandWrite_refused hb hr⟩
    · have hr : RefusedWith w s.opa s.opm .illegalCmd := .inl ⟨⟨why, hw⟩, rfl⟩
      exact .inl ⟨rfl, .illegalCmd, hr, commandWrite_refused hb hr⟩
  · exact .inl ⟨rfl, by simp [commandWrite, hb]⟩

/-- A legal word is carried on by its command's meaning, busy or idle. -/
theorem commandWrite_command {w : Word} {i : Instr} (h : decode w = .command i) (s : State) :
    commandWrite w s = exec i s := by
  unfold commandWrite
  split
  · next hb => exact (exec_busy i hb).symm
  · rw [h]

end Sys2Proof.Machine
end

