-- ==== Sys2Proof/Laws/PerInstr.lean ====
section
/-! SUPPORT. Statements about every command as syntax, one lemma per constructor. -/

namespace Sys2Proof.Laws

/-- The fields of a command's encoded word are the ones R51 and R52 give, and they pass the checks of R55. -/
def EncodedFields.Statement (i : Instr) : Prop :=
  CommandWord.ofWord (encode i) = i.fields ∧ i.wf = true

theorem EncodedFields.mulmod : EncodedFields.Statement .mulmod := by
  unfold EncodedFields.Statement
  decide

theorem EncodedFields.powmod : EncodedFields.Statement .powmod := by
  unfold EncodedFields.Statement
  decide

theorem EncodedFields.sprp : EncodedFields.Statement .sprp := by
  unfold EncodedFields.Statement
  decide

end Sys2Proof.Laws
end

