-- ==== Sys2Proof/Laws/Step.lean ====
section
/-! SUPPORT. Everything one step can do, as one inversion lemma, and the small lemmas of runs. -/

namespace Sys2Proof.Machine

/-- What one step does when it answers a next state. -/
inductive StepEffect (s : State) : State → Prop
  | wait (hi : s.inputs = []) (hb : s.busy = false) : StepEffect s s
  | completion (rest : List Input) (i : Instr)
      (hi : (s.inputs = [] ∧ rest = []) ∨ s.inputs = .engineComplete :: rest) (hb : s.busy = true)
      (hl : Instr.ofOpcode s.lop = some i) (hc : operandCheck i s.la s.lm = none) :
      StepEffect s (complete (.success (resultOf i s)) { s with inputs := rest })
  | engineIdle (rest : List Input) (hi : s.inputs = .engineComplete :: rest) (hb : s.busy = false) :
      StepEffect s { s with inputs := rest }
  | engineWork (rest : List Input) (hi : s.inputs = .engineWork :: rest) : StepEffect s { s with inputs := rest }
  | resetAssert (rest : List Input) (hi : s.inputs = .resetAssert :: rest) :
      StepEffect s (assertReset { s with inputs := rest })
  | resetRelease (rest : List Input) (hi : s.inputs = .resetRelease :: rest) :
      StepEffect s (releaseReset { s with inputs := rest })
  | read (rest : List Input) (r : Slot) (hi : s.inputs = .host (.read r.offset 8) :: rest) (hr : s.inReset = false) :
      StepEffect s (respond (.data (readSlot r s)) { s with inputs := rest })
  | refusedRead (rest : List Input) (off : Int) (n : Nat) (hi : s.inputs = .host (.read off n) :: rest)
      (hr : s.inReset = false) (hn : slotAt off n = none) : StepEffect s (busError off { s with inputs := rest })
  | refusedWrite (rest : List Input) (off : Int) (n : Nat) (v : Word) (hi : s.inputs = .host (.write off n v) :: rest)
      (hr : s.inReset = false) (hn : slotAt off n = none) : StepEffect s (busError off { s with inputs := rest })
  | writeOpa (rest : List Input) (v : Word) (hi : s.inputs = .host (.write 0x00 8 v) :: rest) (hr : s.inReset = false) :
      StepEffect s (setOpa v (respond .written { s with inputs := rest }))
  | writeOpb (rest : List Input) (v : Word) (hi : s.inputs = .host (.write 0x08 8 v) :: rest) (hr : s.inReset = false) :
      StepEffect s (setOpb v (respond .written { s with inputs := rest }))
  | writeOpm (rest : List Input) (v : Word) (hi : s.inputs = .host (.write 0x10 8 v) :: rest) (hr : s.inReset = false) :
      StepEffect s (setOpm v (respond .written { s with inputs := rest }))
  | writeStatus (rest : List Input) (v : Word) (hi : s.inputs = .host (.write 0x20 8 v) :: rest)
      (hr : s.inReset = false) : StepEffect s (Machine.writeStatus v (respond .written { s with inputs := rest }))
  | writeIgnored (rest : List Input) (r : Slot) (v : Word) (hi : s.inputs = .host (.write r.offset 8 v) :: rest)
      (hr : s.inReset = false) (hs : r = .result ∨ r = .reserved30 ∨ r = .reserved38) :
      StepEffect s (respond .written { s with inputs := rest })
  | overrun (rest : List Input) (w : Word) (hi : s.inputs = .host (.write 0x18 8 w) :: rest) (hr : s.inReset = false)
      (hb : s.busy = true) : StepEffect s (overrunWrite (respond .written { s with inputs := rest }))
  | commandError (rest : List Input) (w : Word) (e : ErrorCause) (hi : s.inputs = .host (.write 0x18 8 w) :: rest)
      (hr : s.inReset = false) (hb : s.busy = false) (he : RefusedWith w s.opa s.opm e) :
      StepEffect s (complete (.error e) (respond .written { s with inputs := rest }))
  | accept (rest : List Input) (w : Word) (i : Instr) (hi : s.inputs = .host (.write 0x18 8 w) :: rest)
      (hr : s.inReset = false) (hb : s.busy = false) (hd : decode w = .command i)
      (hc : operandCheck i s.opa s.opm = none) :
      StepEffect s (Machine.accept i (respond .written { s with inputs := rest }))

/-- The engine's turn on the state with the events left. -/
theorem engineTurn_cases {s t : State} (h : engineTurn s = .next t) :
    (s.busy = false ∧ t = s) ∨ (s.busy = true ∧ ∃ i, Instr.ofOpcode s.lop = some i ∧
      operandCheck i s.la s.lm = none ∧ t = complete (.success (resultOf i s)) s) := by
  unfold engineTurn at h
  cases hb : s.busy
  · rw [hb] at h
    exact .inl ⟨rfl, (Host.Outcome.next.inj h).symm⟩
  · rw [hb] at h
    exact .inr ⟨rfl, engineComplete_cases h⟩

/-- The value a completion writes does not depend on the events that wait. -/
theorem resultOf_inputs (i : Instr) (s : State) (rest : List Input) :
    resultOf i { s with inputs := rest } = resultOf i s := by
  cases i <;> rfl

theorem readSlot_inputs (r : Slot) (s : State) (rest : List Input) :
    readSlot r { s with inputs := rest } = readSlot r s := by
  cases r <;> rfl

/-- Everything one step can do. -/
theorem step_cases {s t : State} (h : step s = .next t) : StepEffect s t := by
  unfold step at h
  split at h
  · next hi =>
    rcases engineTurn_cases h with ⟨hb, rfl⟩ | ⟨hb, i, hl, hc, rfl⟩
    · exact .wait hi hb
    · have := StepEffect.completion (s := s) [] i (.inl ⟨hi, rfl⟩) hb hl hc
      rwa [show ({ s with inputs := [] } : State) = s by rw [← hi]] at this
  · next a rest hi =>
    unfold hostAccess at h
    split at h
    · cases h
    · next hr =>
      have hr' : s.inReset = false := by simpa using hr
      split at h
      · next off n =>
        split at h
        · next r hs =>
          obtain ⟨rfl, rfl⟩ := slotAt_eq_some hs
          obtain rfl := Host.Outcome.next.inj h
          rw [readSlot_inputs]
          exact .read rest r hi hr'
        · next hs =>
          obtain rfl := Host.Outcome.next.inj h
          exact .refusedRead rest off n hi hr' hs
      · next off n v =>
        split at h
        · next r hs =>
          obtain ⟨rfl, rfl⟩ := slotAt_eq_some hs
          cases r with
          | cmd =>
            rcases commandWrite_cases v (respond .written { s with inputs := rest }) with
              ⟨hb, hw⟩ | ⟨hb, e, he, hw⟩ | ⟨hb, i, hd, hc, hw⟩ <;>
              obtain rfl := Host.Outcome.next.inj (hw.symm.trans h)
            · exact .overrun rest v hi hr' hb
            · exact .commandError rest v e hi hr' hb he
            · exact .accept rest v i hi hr' hb hd hc
          | opa => obtain rfl := Host.Outcome.next.inj h; exact .writeOpa rest v hi hr'
          | opb => obtain rfl := Host.Outcome.next.inj h; exact .writeOpb rest v hi hr'
          | opm => obtain rfl := Host.Outcome.next.inj h; exact .writeOpm rest v hi hr'
          | status => obtain rfl := Host.Outcome.next.inj h; exact .writeStatus rest v hi hr'
          | result => obtain rfl := Host.Outcome.next.inj h; exact .writeIgnored rest _ v hi hr' (.inl rfl)
          | reserved30 => obtain rfl := Host.Outcome.next.inj h; exact .writeIgnored rest _ v hi hr' (.inr (.inl rfl))
          | reserved38 => obtain rfl := Host.Outcome.next.inj h; exact .writeIgnored rest _ v hi hr' (.inr (.inr rfl))
        · next hs =>
          obtain rfl := Host.Outcome.next.inj h
          exact .refusedWrite rest off n v hi hr' hs
  · next rest hi =>
    obtain rfl := Host.Outcome.next.inj h
    exact .engineWork rest hi
  · next rest hi =>
    rcases engineTurn_cases h with ⟨hb, rfl⟩ | ⟨hb, i, hl, hc, rfl⟩
    · exact .engineIdle rest hi hb
    · rw [resultOf_inputs]
      exact .completion rest i (.inr hi) hb hl hc
  · next rest hi =>
    obtain rfl := Host.Outcome.next.inj h
    exact .resetAssert rest hi
  · next rest hi =>
    obtain rfl := Host.Outcome.next.inj h
    exact .resetRelease rest hi

/-- Every step takes exactly the first event. -/
theorem step_inputs {s t : State} (h : step s = .next t) : t.inputs = s.inputs.tail := by
  cases step_cases h with
  | wait hi _ => rw [hi, List.tail_nil]
  | completion rest _ hi => rcases hi with ⟨hi, rfl⟩ | hi <;> rw [hi] <;> rfl
  | _ => rw [‹s.inputs = _›]; rfl

/-! ### A step by its first event -/

theorem step_nil {s : State} (hi : s.inputs = []) : step s = engineTurn s := by
  unfold step
  rw [hi]

theorem step_host_eq {s : State} {a : Access} {rest : List Input} (hi : s.inputs = .host a :: rest) :
    step s = hostAccess a { s with inputs := rest } := by
  unfold step
  rw [hi]

theorem step_engineWork {s : State} {rest : List Input} (hi : s.inputs = .engineWork :: rest) :
    step s = .next { s with inputs := rest } := by
  unfold step
  rw [hi]

theorem step_engineComplete {s : State} {rest : List Input} (hi : s.inputs = .engineComplete :: rest) :
    step s = engineTurn { s with inputs := rest } := by
  unfold step
  rw [hi]

theorem step_resetAssert {s : State} {rest : List Input} (hi : s.inputs = .resetAssert :: rest) :
    step s = .next (assertReset { s with inputs := rest }) := by
  unfold step
  rw [hi]

theorem step_resetRelease {s : State} {rest : List Input} (hi : s.inputs = .resetRelease :: rest) :
    step s = .next (releaseReset { s with inputs := rest }) := by
  unfold step
  rw [hi]

/-- While reset is asserted no access is admitted. -/
theorem hostAccess_inReset {s : State} (hr : s.inReset = true) (a : Access) :
    hostAccess a s = .fault .hostAccessInReset := by
  unfold hostAccess
  rw [if_pos hr]

theorem hostAccess_write {s : State} (hr : s.inReset = false) (r : Slot) (v : Word) :
    hostAccess (.write r.offset 8 v) s = hostWrite r v (respond .written s) := by
  simp [hostAccess, hr]

theorem hostAccess_read {s : State} (hr : s.inReset = false) (r : Slot) :
    hostAccess (.read r.offset 8) s = .next (respond (.data (readSlot r s)) s) := by
  simp [hostAccess, hr, hostRead]

theorem hostAccess_refusedRead {s : State} (hr : s.inReset = false) {off : Int} {n : Nat} (hn : slotAt off n = none) :
    hostAccess (.read off n) s = .next (busError off s) := by
  simp [hostAccess, hr, hn]

theorem hostAccess_refusedWrite {s : State} (hr : s.inReset = false) {off : Int} {n : Nat} (hn : slotAt off n = none)
    (v : Word) : hostAccess (.write off n v) s = .next (busError off s) := by
  simp [hostAccess, hr, hn]

/-- An admitted write always answers a next state. -/
theorem hostWrite_next (r : Slot) (v : Word) (s : State) : ∃ t, hostWrite r v s = .next t := by
  cases r with
  | cmd =>
    rcases commandWrite_cases v s with ⟨-, hw⟩ | ⟨-, e, -, hw⟩ | ⟨-, i, -, -, hw⟩ <;> exact ⟨_, hw⟩
  | _ => exact ⟨_, rfl⟩

/-- A host access out of reset always answers a next state. -/
theorem hostAccess_next {s : State} (hr : s.inReset = false) (a : Access) : ∃ t, hostAccess a s = .next t := by
  cases a with
  | read off n =>
    cases hs : slotAt off n with
    | none => exact ⟨_, hostAccess_refusedRead hr hs⟩
    | some r => obtain ⟨rfl, rfl⟩ := slotAt_eq_some hs; exact ⟨_, hostAccess_read hr r⟩
  | write off n v =>
    cases hs : slotAt off n with
    | none => exact ⟨_, hostAccess_refusedWrite hr hs v⟩
    | some r =>
      obtain ⟨rfl, rfl⟩ := slotAt_eq_some hs
      rw [hostAccess_write hr]
      exact hostWrite_next _ _ _

/-- A host write of a place, out of reset. -/
theorem step_write {s : State} {r : Slot} {v : Word} {rest : List Input}
    (hi : s.inputs = .host (.write r.offset 8 v) :: rest) (hr : s.inReset = false) :
    step s = hostWrite r v (respond .written { s with inputs := rest }) :=
  (step_host_eq hi).trans (hostAccess_write (s := { s with inputs := rest }) hr r v)

/-- A host read of a place, out of reset. -/
theorem step_read {s : State} {r : Slot} {rest : List Input}
    (hi : s.inputs = .host (.read r.offset 8) :: rest) (hr : s.inReset = false) :
    step s = .next (respond (.data (readSlot r s)) { s with inputs := rest }) := by
  rw [step_host_eq hi, hostAccess_read (s := { s with inputs := rest }) hr r, readSlot_inputs]

/-! ### While a command is in flight -/

/-- A host access or an internal engine step leaves a command in flight as it is: busy, with its latches. -/
theorem step_keeps_command_in_flight {s t : State} {e : Input} {rest : List Input} (hi : s.inputs = e :: rest)
    (he : e.isHostOrWork = true) (hb : s.busy = true) (hr : s.inReset = false) (h : step s = .next t) :
    t.busy = true ∧ t.inReset = false ∧ t.lop = s.lop ∧ t.la = s.la ∧ t.lb = s.lb ∧ t.lm = s.lm ∧ t.inputs = rest := by
  have hin : t.inputs = rest := by rw [step_inputs h, hi]; rfl
  cases step_cases h with
  | wait hi' => rw [hi] at hi'; cases hi'
  | completion r i hi' => rcases hi' with ⟨h1, -⟩ | h1 <;> rw [hi] at h1 <;> cases h1; cases he
  | engineIdle r hi' => rw [hi] at hi'; cases hi'; cases he
  | resetAssert r hi' => rw [hi] at hi'; cases hi'; cases he
  | resetRelease r hi' => rw [hi] at hi'; cases hi'; cases he
  | commandError r w e' hi' hr' hb' => rw [hb] at hb'; cases hb'
  | accept r w i hi' hr' hb' => rw [hb] at hb'; cases hb'
  | _ => exact ⟨hb, hr, rfl, rfl, rfl, rfl, hin⟩

/-- Out of reset a host access or an internal engine step always answers a next state. -/
theorem step_next_of_hostOrWork {s : State} {e : Input} {rest : List Input} (hi : s.inputs = e :: rest)
    (he : e.isHostOrWork = true) (hr : s.inReset = false) : ∃ t, step s = .next t := by
  cases e with
  | host a => rw [step_host_eq hi]; exact hostAccess_next (s := { s with inputs := rest }) hr a
  | engineWork => exact ⟨_, step_engineWork hi⟩
  | engineComplete => cases he
  | resetAssert => cases he
  | resetRelease => cases he

/-! ### Runs -/

@[simp] theorem runN_zero (s : State) : runN 0 s = .next s := rfl

/-- A run's first step. -/
theorem runN_succ {k : Nat} {s u : State} (h : runN (k + 1) s = .next u) : ∃ t, step s = .next t ∧ runN k t = .next u := by
  rw [runN] at h
  split at h
  · next t ht => exact ⟨t, ht, h⟩
  · cases h
  · cases h

theorem runN_succ_of_step {s t : State} (h : step s = .next t) (k : Nat) : runN (k + 1) s = runN k t := by
  rw [runN, h]

/-- What every step keeps, every run keeps. -/
theorem runN_keeps {P : State → Prop} (hP : ∀ s t, P s → step s = .next t → P t) :
    ∀ (k : Nat) (s t : State), P s → runN k s = .next t → P t := by
  intro k
  induction k with
  | zero => intro s t hs h; rw [← Host.Outcome.next.inj h]; exact hs
  | succ k ih =>
    intro s t hs h
    obtain ⟨u, hu, h'⟩ := runN_succ h
    exact ih u t (hP s u hs hu) h'

end Sys2Proof.Machine
end

