-- ==== Sys2Proof/Tests/Slice0.lean ====
section
/-! SUPPORT. Small tests, their expected values from spec/95_test_vectors.md and the rules named beside them; and, for every
statement that has hypotheses, a concrete state that meets them. -/

open Sys2Proof Sys2Proof.Machine

namespace Sys2Proof.Tests

/-! ### Helpers -/

/-- Idle, with the three operands written. -/
def idle (a b m : Word) : State := { State.reset with opa := a, opb := b, opm := m }

/-- A command of opcode `op` in flight with the latches given. -/
def flying (op : BitVec 8) (a b m : Word) : State :=
  { State.reset with busy := true, lop := op, la := a, lb := b, lm := m, opa := a, opb := b, opm := m }

/-- The state with its next events. -/
def State.before (s : State) (events : List Input) : State := { s with inputs := events }

/-- The host writes a value at an offset. -/
def wr (off : Int) (v : Word) : Input := .host (.write off 8 v)

/-- The host reads at an offset. -/
def rd (off : Int) : Input := .host (.read off 8)

/-- A value of the next state of a step. -/
def after {α : Type} (f : State → α) : Host.Outcome State Fault Refusal → Option α
  | .next t => some (f t)
  | _ => none

/-! ### Well-formedness: one ill-formed term a check -/

theorem test_wf_refuses_reserved_bits : CommandWord.wf { opcode := 0x01, rsvd := 1 } = false := by decide
theorem test_wf_refuses_opcode_0 : CommandWord.wf { opcode := 0x00, rsvd := 0 } = false := by decide
theorem test_wf_refuses_opcode_4 : CommandWord.wf { opcode := 0x04, rsvd := 0 } = false := by decide
theorem test_wf_accepts_mulmod : Instr.mulmod.wf = true := by decide

/-- R37: wrong width, misaligned, below the window, past it; and the last admitted offset. -/
theorem test_admission : admitted 0 4 = false ∧ admitted 0 16 = false ∧ admitted 4 8 = false ∧ admitted (-8) 8 = false ∧
    admitted 0x40 8 = false ∧ admitted 0x38 8 = true ∧ admitted 0 8 = true := by decide

/-! ### Decoding: words written out from R51, R52 and spec/opcode_table.json -/

theorem test_decode_mulmod :
    decode 0b0000000000000000000000000000000000000000000000000000000000000001 = .command .mulmod := by decide
theorem test_decode_powmod :
    decode 0b0000000000000000000000000000000000000000000000000000000000000010 = .command .powmod := by decide
theorem test_decode_sprp :
    decode 0b0000000000000000000000000000000000000000000000000000000000000011 = .command .sprp := by decide
/-- X5, X6, X7: word 0, a reserved bit, an opcode not listed. -/
theorem test_decode_illegal : decode 0 = .illegal .unknownOpcode ∧ decode 0x101 = .illegal .reservedBitsSet ∧
    decode 0x4 = .illegal .unknownOpcode := by decide
/-- R38: the opcode is the byte at the lowest address. -/
theorem test_decode_bytes : decodeBytes [3, 0, 0, 0, 0, 0, 0, 0, 9] = .command .sprp [9] ∧
    decodeBytes [0, 0, 0, 0, 0, 0, 0, 3] = .illegal .reservedBitsSet ∧ decodeBytes [1, 0, 0] = .illegal .tooShort := by
  decide
theorem test_decodeTableWord : decodeTableWord 64 1 = some .mulmod ∧ decodeTableWord 64 2 = some .powmod ∧
    decodeTableWord 64 3 = some .sprp ∧ decodeTableWord 64 0 = none := by decide

/-! ### Commands: vectors of spec/95_test_vectors.md -/

/-- M1: 2^32 * 2^32 mod (2^64 - 1) = 1, where a 64-bit product would give 0. -/
theorem test_mulmod_wide_product :
    after State.result (step (flying 1 0x100000000 0x100000000 0xFFFFFFFFFFFFFFFF)) = some 1 := by decide +kernel
/-- M14. -/
theorem test_mulmod_general : after State.result
    (step (flying 1 0xDEADBEEFCAFEBABE 0x0123456789ABCDEF 0xFFFFFFFFFFFFFFC5)) = some 0xB91AB655ED6F6411 := by
  decide +kernel
/-- P3: exponent 0 with modulus 1 gives 1. -/
theorem test_powmod_exponent_zero : after State.result (step (flying 2 5 0 1)) = some 1 := by decide +kernel
/-- P18: all 64 exponent bits. -/
theorem test_powmod_all_bits : after State.result
    (step (flying 2 0xDEADBEEF 0xFFFFFFFFFFFFFFFF 0xFFFFFFFFFFFFFFC5)) = some 0xEE1DF8F3C1AE4C14 := by decide +kernel
/-- S23: pass at round 1. -/
theorem test_sprp_pass : after State.result (step (flying 3 2 0 0xFFFFFFFFFFFFFFC5)) = some 1 := by decide +kernel
/-- S16: 561 reaches 1 without n - 1 and fails. -/
theorem test_sprp_fail : after State.result (step (flying 3 2 0 561)) = some 0 := by decide +kernel

/-! ### Dispatch and the window: vectors X of spec/95_test_vectors.md -/

/-- X3: STATUS = 0x1 after the accept. -/
theorem test_accept_status : after (readSlot .status) (step (State.before (idle 5 5 7) [wr 0x18 1])) = some 0x1 := by
  decide
/-- X4: STATUS = 0x2 and RESULT = 4 after the completion. -/
theorem test_completion : after (fun t => (readSlot .status t, t.result)) (step (flying 1 5 5 7)) = some (0x2, 4) := by
  decide +kernel
/-- X6, X8, X9: STATUS after each error completion. -/
theorem test_error_status :
    after (readSlot .status) (step (State.before (idle 5 5 7) [wr 0x18 0x101])) = some 0x12 ∧
    after (readSlot .status) (step (State.before (idle 5 5 0) [wr 0x18 0x2])) = some 0x22 ∧
    after (readSlot .status) (step (State.before (idle 1 0 4) [wr 0x18 0x3])) = some 0x32 := by decide
/-- X11: a word written while busy is not decoded. -/
theorem test_overrun_status :
    after (readSlot .status) (step (State.before (flying 1 5 5 7) [wr 0x18 0xFF])) = some 0x101 := by decide
/-- X12, X13: the write of STATUS acts through bit 8 only. -/
theorem test_status_write :
    after (readSlot .status) (step { State.reset with done := true, overrun := true, inputs := [wr 0x20 0x100] }) = some 0x2 ∧
    after (readSlot .status) (step { State.reset with done := true, overrun := true, inputs := [wr 0x20 0xFF] }) = some 0x102 := by
  decide
/-- X17: a misaligned read is a bus error. -/
theorem test_bus_error : after State.response (step (State.before State.reset [rd 4])) = some (.busError 4) := by decide
/-- X19: rewriting OPA while busy leaves LA. -/
theorem test_latched_operand :
    after (fun t => (t.opa, t.la)) (step (State.before (flying 1 2 5 7) [wr 0x00 3])) = some (3, 2) := by decide
/-- X20: reset with a command in flight. -/
theorem test_reset_abandons : after (fun t => (readSlot .status t, t.result, t.busy))
    (step (State.before { flying 1 5 5 7 with result := 9 } [.resetAssert])) = some (0, 0, false) := by decide
/-- R60: `cause hD`, its middle line on STATUS = 0x22. -/
theorem test_host_srli : (match (HostSystem.start (causeLines 2) []).setReg 2 0x22 |>.perform (.srli 2 2 4) with
    | .next S => S.reg 2
    | _ => none) = some 2 := by decide

/-! ### Witnesses: every statement's hypotheses can be met -/

theorem witness_IllegalWordsAreRefused : (∃ why, decode 0x101 = .illegal why) ∧ (idle 1 1 1).busy = false ∧
    (flying 1 1 1 1).busy = true := ⟨⟨_, rfl⟩, rfl, rfl⟩

theorem witness_DecodeAndEncodeAgreeOnBytes : decodeBytes [2, 0, 0, 0, 0, 0, 0, 0, 7] = .command .powmod [7] := by decide

theorem witness_StepRunsTheDecodedCommand : (State.before (idle 5 5 7) [wr 0x18 1]).inputs = [.host (.write 0x18 8 1)] ∧
    (State.before (idle 5 5 7) [wr 0x18 1]).inReset = false ∧ decode 1 = .command .mulmod := by decide

/-- MULMOD and POWMOD with the least modulus 1; SPRP with the least candidate 5 and the greatest witness n - 1. -/
theorem witness_EveryCommandIsAccepted : (idle 5 5 1).busy = false ∧ (idle 5 5 1).opm ≠ 0 ∧
    (idle 4 0 5).opm.toNat % 2 = 1 ∧ 3 < (idle 4 0 5).opm.toNat ∧ (idle 4 0 5).opa.toNat < (idle 4 0 5).opm.toNat := by
  decide

/-- Each clause of the three commands: busy, modulus 0, modulus 1. -/
theorem witness_MulmodComputesTheProduct : (flying 1 5 5 7).busy = true ∧ (idle 5 5 0).busy = false ∧ (idle 5 5 0).opm = 0 ∧
    (idle 5 5 1).busy = false ∧ (idle 5 5 1).opm ≠ 0 := by decide

theorem witness_PowmodComputesThePower : (flying 2 5 5 7).busy = true ∧ (idle 5 0 0).busy = false ∧ (idle 5 0 0).opm = 0 ∧
    (idle 5 0 1).busy = false ∧ (idle 5 0 1).opm ≠ 0 := by decide

/-- Out of the domain by each of its three conditions, and in it; 5 - 1 = 1 * 2^2. -/
theorem witness_SprpDecidesTheStrongTest : (flying 3 1 0 5).busy = true ∧ (idle 1 0 4).opm.toNat % 2 = 0 ∧
    (idle 2 0 3).opm.toNat ≤ 3 ∧ (idle 5 0 5).opm.toNat ≤ (idle 5 0 5).opa.toNat ∧
    ((idle 4 0 5).busy = false ∧ (idle 4 0 5).opm.toNat % 2 = 1 ∧ 3 < (idle 4 0 5).opm.toNat ∧
      (idle 4 0 5).opa.toNat < (idle 4 0 5).opm.toNat ∧ 1 % 2 = 1 ∧ 1 * 2 ^ 2 = (idle 4 0 5).opm.toNat - 1) := by decide

theorem witness_CommandWhileBusyIsAnOverrun : (State.before (flying 1 5 5 7) [wr 0x18 0xFF]).busy = true ∧
    (State.before (flying 1 5 5 7) [wr 0x18 0xFF]).inReset = false ∧
    (State.before (flying 1 5 5 7) [wr 0x18 0xFF]).inputs = [.host (.write 0x18 8 0xFF)] := by decide

/-- An accept, an overrun and a completion. -/
theorem witness_CommandFrame : (∃ t, exec .mulmod (idle 5 5 7) = .next t ∧ t.busy = true) ∧
    (∃ t, exec .mulmod (idle 5 5 0) = .next t ∧ t.busy = false) ∧ (∃ t, exec .sprp (flying 3 1 0 5) = .next t) ∧
    (∃ t, engineComplete (flying 1 5 5 7) = .next t) := ⟨⟨_, rfl, rfl⟩, ⟨_, rfl, rfl⟩, ⟨_, rfl⟩, ⟨_, rfl⟩⟩

theorem witness_EngineStepNeverFails : (idle 1 1 1).busy = false ∧ (flying 3 4 0 5).Inv ∧ (flying 3 4 0 5).busy = true := by
  decide

theorem witness_EveryStepKeepsTheInvariant : (State.before (idle 4 0 5) [wr 0x18 3]).Inv ∧
    ∃ t, step (State.before (idle 4 0 5) [wr 0x18 3]) = .next t ∧ t.busy = true := ⟨by decide, _, rfl, rfl⟩

theorem witness_EveryStepKeepsResetIdle : (State.before (flying 1 5 5 7) [.resetAssert]).ResetIsIdle ∧
    ∃ t, step (State.before (flying 1 5 5 7) [.resetAssert]) = .next t ∧ t.inReset = true := ⟨by decide, _, rfl, rfl⟩

theorem witness_OnlyAnAccessDuringResetStops : ({ State.reset with inReset := true, inputs := [rd 0x20] } : State).Inv ∧
    step { State.reset with inReset := true, inputs := [rd 0x20] } = .fault .hostAccessInReset := ⟨by decide, rfl⟩

theorem witness_OperandRegistersAreTheHosts :
    (∃ t, step (State.before (idle 1 2 3) [wr 0x00 9]) = .next t ∧ t.opa ≠ (idle 1 2 3).opa) ∧
    (∃ t, step (State.before (idle 1 2 3) [wr 0x08 9]) = .next t ∧ t.opb ≠ (idle 1 2 3).opb) ∧
    (∃ t, step (State.before (idle 1 2 3) [wr 0x10 9]) = .next t ∧ t.opm ≠ (idle 1 2 3).opm) ∧
    (∃ t, step (State.before (idle 1 2 3) [.resetAssert]) = .next t ∧ t.opa ≠ (idle 1 2 3).opa) :=
  ⟨⟨_, rfl, by decide⟩, ⟨_, rfl, by decide⟩, ⟨_, rfl, by decide⟩, ⟨_, rfl, by decide⟩⟩

theorem witness_ResultChangesOnlyAtSuccess : (∃ t, step (flying 1 5 5 7) = .next t ∧ t.result ≠ (flying 1 5 5 7).result) ∧
    (∃ t, step { State.reset with result := 9, inputs := [.resetAssert] } = .next t ∧ t.result ≠ 9) :=
  ⟨⟨_, rfl, by decide +kernel⟩, ⟨_, rfl, by decide⟩⟩

/-- One witness a way: the engine's turn with and without an event, a CMD write while idle, reset. -/
theorem witness_CauseChangesOnlyAtCompletion :
    (∃ t, step { flying 1 5 5 7 with cause := 2 } = .next t ∧ t.cause ≠ 2) ∧
    (∃ t, step { flying 1 5 5 7 with cause := 2, inputs := [.engineComplete] } = .next t ∧ t.cause ≠ 2) ∧
    (∃ t, step (State.before (idle 1 0 4) [wr 0x18 3]) = .next t ∧ t.cause ≠ (idle 1 0 4).cause) ∧
    (∃ t, step { State.reset with cause := 3, inputs := [.resetAssert] } = .next t ∧ t.cause ≠ 3) :=
  ⟨⟨_, rfl, by decide⟩, ⟨_, rfl, by decide⟩, ⟨_, rfl, by decide⟩, ⟨_, rfl, by decide⟩⟩

theorem witness_OverrunIsSticky :
    (∃ t, step (State.before (flying 1 5 5 7) [wr 0x18 1]) = .next t ∧ t.overrun = true) ∧
    (∃ t, step { State.reset with overrun := true, inputs := [wr 0x20 0x100] } = .next t ∧ t.overrun = false) ∧
    (∃ t, step { State.reset with overrun := true, inputs := [wr 0x20 0xFF] } = .next t ∧ t.overrun = true) ∧
    (∃ t, step { State.reset with overrun := true, inputs := [.resetAssert] } = .next t ∧ t.overrun = false) :=
  ⟨⟨_, rfl, rfl⟩, ⟨_, rfl, rfl⟩, ⟨_, rfl, rfl⟩, ⟨_, rfl, rfl⟩⟩

theorem witness_LatchesChangeOnlyAtAccept : ∃ t, step (State.before (idle 5 5 7) [wr 0x18 1]) = .next t ∧ t.lop ≠ 0 :=
  ⟨_, rfl, by decide⟩

theorem witness_IdleLatchesAreNeverRead : (State.before (idle 5 5 7) [wr 0x18 1]).busy = false ∧
    (∃ t, step (State.before (idle 5 5 7) [wr 0x18 1]) = .next t) ∧
    (∃ f, step { State.reset with inReset := true, inputs := [rd 0] } = .fault f) := ⟨rfl, ⟨_, rfl⟩, ⟨_, rfl⟩⟩

theorem witness_ReservedStatusBitsReadZero : (9 ≤ 63 ∧ 9 ≤ 9) ∧ BitVec.getLsbD (0x100 : Word) 8 = BitVec.getLsbD (0xF0C : Word) 8 := by
  decide

theorem witness_ReadsReturnTheTableValue : (State.before (idle 1 2 3) [rd Slot.reserved38.offset]).inReset = false ∧
    (State.before (idle 1 2 3) [rd 0x38]).inputs = [.host (.read Slot.reserved38.offset 8)] := by decide

theorem witness_WritesHaveTheListedEffect : (State.before (idle 1 2 3) [wr 0x38 5]).inReset = false ∧
    (State.before (idle 1 2 3) [wr 0x38 5]).inputs = [.host (.write Slot.reserved38.offset 8 5)] := by decide

/-- The last admitted offset, and the ways to miss. -/
theorem witness_AccessesAreAdmittedByWidthAndOffset : (8 = 8 ∧ (0x38 : Int) % 8 = 0 ∧ (0 : Int) ≤ 0x38 ∧ (0x38 : Int) ≤ 0x38) ∧
    ¬(8 = 8 ∧ (0x40 : Int) % 8 = 0 ∧ (0 : Int) ≤ 0x40 ∧ (0x40 : Int) ≤ 0x38) ∧
    ¬(4 = 8 ∧ (0 : Int) % 8 = 0 ∧ (0 : Int) ≤ 0 ∧ (0 : Int) ≤ 0x38) ∧
    (State.before State.reset [rd 0x40]).inputs = [.host (.read 0x40 8)] ∧ State.reset.inReset = false := by decide

/-- The last byte of the window, and the first address past it. -/
theorem witness_PlatformSeesLittleEndianWindow :
    (((Config.windowBase + 0x38 + 7 : Nat) : Int) = Config.windowBase + Slot.reserved38.offset + (7 : Nat)) ∧
    Config.windowBase + 64 ≤ Config.windowBase + 64 := ⟨by simp [Slot.offset], le_rfl⟩

theorem witness_WriteIsSeenByTheNextAccess :
    (State.before (idle 1 2 3) [wr 0x10 5, rd 0x10]).inputs = .host (.write Slot.opm.offset 8 5) :: [.host (.read Slot.opm.offset 8)] ∧
    (State.before (idle 1 2 3) [wr 0x10 5, rd 0x10]).inReset = false := by decide

theorem witness_CommandInFlightIsUndisturbed : (idle 5 5 7).busy = false ∧ (idle 5 5 7).inReset = false ∧
    (∃ t, exec .mulmod (idle 5 5 7) = .next t ∧ t.busy = true) ∧
    (∀ e ∈ [wr 0x00 9, .engineWork, wr 0x18 2], e.isHostOrWork = true) := ⟨rfl, rfl, ⟨_, rfl, rfl⟩, by decide⟩

/-- Two states that differ in OPB, with different events before the completion. -/
theorem witness_ResultDependsOnlyOnOperands : (idle 2 0 5).opa = (idle 2 9 5).opa ∧ (idle 2 0 5).opm = (idle 2 9 5).opm ∧
    ∃ t₁ t₂ u₁ u₂, exec .sprp (idle 2 0 5) = .next t₁ ∧ exec .sprp (idle 2 9 5) = .next t₂ ∧ t₁.busy = true ∧
      runN 1 { t₁ with inputs := [.engineComplete] } = .next u₁ ∧
      runN 2 { t₂ with inputs := [.engineWork, .engineComplete] } = .next u₂ :=
  ⟨rfl, rfl, _, _, _, _, rfl, rfl, rfl, rfl, rfl⟩

theorem witness_EveryCommandInFlightEnds : (State.before (flying 3 4 0 5) [rd 0x20]).Inv ∧
    (State.before (flying 3 4 0 5) [rd 0x20]).ResetIsIdle ∧ (State.before (flying 3 4 0 5) [rd 0x20]).busy = true := by
  decide

theorem witness_EveryLatencyOccurs : (idle 5 5 7).busy = false ∧ (idle 5 5 7).inReset = false ∧
    (∃ t, exec .powmod (idle 5 5 7) = .next t ∧ t.busy = true) ∧ 1 ≤ 1 := ⟨rfl, rfl, ⟨_, rfl, rfl⟩, le_rfl⟩

theorem witness_ResultStaysUntilTheNextCommand : (State.before (idle 5 5 7) [wr 0x00 1, rd 0x28]).busy = false ∧
    (∀ e ∈ (State.before (idle 5 5 7) [wr 0x00 1, rd 0x28]).inputs.take 2, e.startsNothing = true) ∧
    (∃ t, runN 2 (State.before (idle 5 5 7) [wr 0x00 1, rd 0x28]) = .next t) := ⟨rfl, by decide, _, rfl⟩

/-- One witness a kind of error. -/
theorem witness_ErrorsChangeNoOperandAndNoResult :
    (∃ t, step (State.before (idle 1 0 4) [wr 0x18 3]) = .next t ∧ t.hostFaults = [.errorCompletion .sprpDomain]) ∧
    (∃ t, step (State.before (flying 1 5 5 7) [wr 0x18 3]) = .next t ∧ t.hostFaults = [.overrun]) ∧
    (∃ t, step (State.before (idle 1 0 4) [rd 0x40]) = .next t ∧ t.hostFaults = [.busError 0x40]) :=
  ⟨⟨_, rfl, rfl⟩, ⟨_, rfl, rfl⟩, ⟨_, rfl, rfl⟩⟩

/-- An error kept through reset; a success that records nothing; and each kind of error made a second time: an overrun, an
illegal word, a bus error at the first offset past the window. -/
theorem witness_ErrorsAreRecordedAndKept :
    (∃ t, runN 2 (State.before (idle 1 0 4) [wr 0x18 3, .resetAssert]) = .next t ∧ t.hostFaults = [.errorCompletion .sprpDomain]) ∧
    (∃ t, step (flying 1 5 5 7) = .next t ∧ t.hostFaults = (flying 1 5 5 7).hostFaults) ∧
    (∃ t, runN 2 (State.before (flying 1 5 5 7) [wr 0x18 1, wr 0x18 1]) = .next t ∧ t.hostFaults = [.overrun, .overrun]) ∧
    (∃ t, runN 2 (State.before (idle 1 0 4) [wr 0x18 0, wr 0x18 0]) = .next t ∧ t.busy = false ∧
      t.hostFaults = [.errorCompletion .illegalCmd, .errorCompletion .illegalCmd]) ∧
    (∃ t, runN 2 (State.before (idle 1 0 4) [rd 0x40, wr 0x40 1]) = .next t ∧ t.hostFaults = [.busError 0x40, .busError 0x40]) ∧
    ¬(8 = 8 ∧ (0x40 : Int) % 8 = 0 ∧ (0 : Int) ≤ 0x40 ∧ (0x40 : Int) ≤ 0x38) :=
  ⟨⟨_, rfl, rfl⟩, ⟨_, rfl, rfl⟩, ⟨_, rfl, rfl⟩, ⟨_, rfl, rfl, rfl⟩, ⟨_, rfl, rfl⟩, by decide⟩

theorem witness_ResetAbandonsTheCommand :
    (State.before (flying 1 5 5 7) [.resetAssert, .resetRelease, rd 0x28]).inputs = [.resetAssert, .resetRelease, rd 0x28] ∧
    (∀ e ∈ ([.resetRelease, rd 0x28] : List Input).take 2, e.startsNothing = true) ∧
    (∃ u, runN 3 (State.before (flying 1 5 5 7) [.resetAssert, .resetRelease, rd 0x28]) = .next u) := ⟨rfl, by decide, _, rfl⟩

/-- The least and the greatest modulus. -/
theorem witness_MulmodIsExact : (1 : Word) ≠ 0 ∧ (0xFFFFFFFFFFFFFFFF : Word) ≠ 0 := by decide

theorem witness_MulmodByOneReduces : (1 : Word) ≠ 0 ∧ (idle 12345 1 97).busy = false ∧ (idle 12345 1 97).opm ≠ 0 ∧
    (idle 12345 1 97).opb = 1 := by decide

theorem witness_PowmodOfExponentZeroIsOne : (1 : Word) ≠ 0 ∧ (5 : Word).toNat % 2 = 1 ∧ 3 < (5 : Word).toNat := by decide

/-- The least modulus, the greatest exponent and exponent 0; a POWMOD in flight. -/
theorem witness_PowmodIsThePower : (1 : Word) ≠ 0 ∧ (0xFFFFFFFFFFFFFFFF : Word) ≠ 0 ∧ (0 : Word) = 0 ∧
    (flying 2 5 5 7).busy = true ∧ (flying 2 5 5 7).lop = 2 ∧ (flying 2 5 5 7).lm ≠ 0 := by decide

/-- The least and the greatest candidate, and the one with s = 63. -/
theorem witness_DecompositionOfCandidate : ((5 : Word).toNat % 2 = 1 ∧ 3 < (5 : Word).toNat) ∧
    ((0xFFFFFFFFFFFFFFFF : Word).toNat % 2 = 1 ∧ 3 < (0xFFFFFFFFFFFFFFFF : Word).toNat) ∧
    (decompose 0x8000000000000001).2 = 63 := by decide +kernel

theorem witness_ZeroWitnessPasses : (98207 : Word).toNat % 2 = 1 ∧ 3 < (98207 : Word).toNat := by decide

theorem witness_VerdictIsTheRoundCondition : (5 : Word).toNat % 2 = 1 ∧ 3 < (5 : Word).toNat ∧ (4 : Word).toNat < (5 : Word).toNat := by
  decide

/-- S16, 561 with witness 2: d = 35, s = 4, the powers 263, 166, 67, 1 at rounds 0 to 3; and S4, 97 with witness 96. -/
theorem witness_WitnessCornerCases : (561 : Word).toNat % 2 = 1 ∧ 3 < (561 : Word).toNat ∧ (2 : Word) ≠ 0 ∧
    (2 : Word).toNat < (561 : Word).toNat ∧ 1 ≤ 3 ∧ 3 < (decompose 561).2 ∧ powmod 2 (decompose 561).1 561 ≠ 1 ∧
    2 ^ (35 * 2 ^ 3) % 561 = 1 ∧ (∀ r < 3, 2 ^ (35 * 2 ^ r) % 561 ≠ 561 - 1) ∧ (decompose 561).1 = 35 ∧
    powmod 96 (decompose 97).1 97 = 97 - 1 := by decide +kernel

/-- A prime candidate, and a candidate that fails. -/
theorem witness_PrimeCandidatePasses : ((97 : Word).toNat % 2 = 1 ∧ 3 < (97 : Word).toNat ∧ (2 : Word).toNat < (97 : Word).toNat ∧
    Nat.Prime (97 : Word).toNat) ∧ sprp 91 2 = false := by
  refine ⟨⟨by decide, by decide, by decide, ?_⟩, by decide +kernel⟩
  show Nat.Prime 97
  norm_num

theorem witness_PowmodWork : (0 : Word) = 0 ∧ (0xFFFFFFFFFFFFFFFF : Word) ≠ 0 := by decide

theorem witness_SprpWork : (0xFFFFFFFFFFFFFFFF : Word).toNat % 2 = 1 ∧ 3 < (0xFFFFFFFFFFFFFFFF : Word).toNat ∧
    (2 : Word).toNat < (0xFFFFFFFFFFFFFFFF : Word).toNat := by decide

theorem witness_HostLinesPerformWindowAccesses : (HostSystem.start [] []).core.inReset = false ∧
    (HostSystem.start [] []).core.inputs = [] ∧ (HostSystem.start [] []).regs[(0 : HostReg)] = none := by decide

end Sys2Proof.Tests
end

/-! ### Every latency occurs (R6, R66) -/

namespace Sys2Proof.Machine

/-- The schedule of engine steps only: `work` internal steps, then the completion. -/
def workThenComplete (work : Nat) : List Input := List.replicate work .engineWork ++ [.engineComplete]

theorem latencyOf_workThenComplete (work : Nat) : latencyOf (workThenComplete work) = work + 1 := by
  induction work with
  | zero => rfl
  | succ work ih => exact congrArg (· + 1) ih

theorem mem_workThenComplete {work : Nat} {e : Input} (he : e ∈ workThenComplete work) :
    e = .engineWork ∨ e = .engineComplete := by
  rcases List.mem_append.1 he with h | h
  · exact .inl (List.eq_of_mem_replicate h)
  · exact .inr (List.mem_singleton.1 h)

/-- A schedule with `k + j` internal steps begins with `k` of them. -/
theorem workThenComplete_add (k j : Nat) :
    workThenComplete (k + j) = List.replicate k .engineWork ++ workThenComplete j := by
  rw [workThenComplete, List.replicate_add, List.append_assoc, workThenComplete]

/-- Internal engine steps only take their events: a run through `k` of them goes on from the state it began in (R26). -/
theorem runN_through_engineWork (s : State) (rest : List Input) (j k : Nat) :
    runN (k + j) { s with inputs := List.replicate k .engineWork ++ rest } = runN j { s with inputs := rest } := by
  induction k with
  | zero => rw [Nat.zero_add, List.replicate_zero, List.nil_append]
  | succ k ih =>
    rw [Nat.add_right_comm, runN_succ_of_step (step_engineWork rfl)]
    exact ih

/-- The completion of a command whose latches are in its domain, as the whole step (R65). -/
theorem step_completes_of_latched {s : State} {i : Instr} {rest : List Input} (hi : s.inputs = .engineComplete :: rest)
    (hb : s.busy = true) (hl : s.lop = i.opcode) (hc : operandCheck i s.la s.lm = none) :
    step s = .next (complete (.success (resultOf i s)) { s with inputs := rest }) := by
  rw [step_engineComplete hi, engineTurn_of_latched (s := { s with inputs := rest }) hb hl hc, resultOf_inputs]

/-- Settles O34: after an accept, `n - 1` internal engine steps leave the command in flight and the completion follows at
step `n`. -/
theorem everyLatencyOccurs : Obligations.EveryLatencyOccurs := by
  intro i s t n hidle _ hexec hbusy hn
  obtain ⟨work, rfl⟩ := Nat.exists_eq_add_of_le' hn
  obtain ⟨hc, rfl⟩ := exec_accepted hidle hexec hbusy
  refine ⟨workThenComplete work, latencyOf_workThenComplete work, fun _ => mem_workThenComplete, ?_, ?_⟩
  · intro k hk
    obtain ⟨j, rfl⟩ := Nat.exists_eq_add_of_le (Nat.le_of_lt_succ hk)
    rw [workThenComplete_add]
    exact ⟨_, runN_through_engineWork _ _ 0 k, hbusy⟩
  · have hstep := step_completes_of_latched (s := { accept i s with inputs := workThenComplete 0 }) rfl hbusy rfl hc
    have hrun : runN (work + 1) { accept i s with inputs := workThenComplete work } = _ :=
      (runN_through_engineWork _ _ 1 work).trans (runN_succ_of_step hstep 0)
    exact ⟨_, hrun, rfl, rfl⟩

end Sys2Proof.Machine

/-! ### The invariant of R27 -/

namespace Sys2Proof.Machine

/-- An error's CAUSE code is 1, 2 or 3 (R92). -/
theorem ErrorCause.code_cases (e : ErrorCause) : e.code = 1 ∨ e.code = 2 ∨ e.code = 3 := by
  cases e with
  | illegalCmd => exact .inl rfl
  | modulusZero => exact .inr (.inl rfl)
  | sprpDomain => exact .inr (.inr rfl)

/-- A command's opcode is 1, 2 or 3 (R52). -/
theorem opcode_cases (i : Instr) : i.opcode = 1 ∨ i.opcode = 2 ∨ i.opcode = 3 := by
  cases i with
  | mulmod => exact .inl rfl
  | powmod => exact .inr (.inl rfl)
  | sprp => exact .inr (.inr rfl)

/-- While BUSY = 0 only the last clause of R27 says anything. -/
theorem inv_of_idle {s : State} (hb : s.busy = false) (hc : s.CauseLegal) : s.Inv :=
  ⟨by simp [hb], by simp [hb], by simp [hb], by simp [hb], hc⟩

theorem reset_inv : State.reset.Inv := inv_of_idle rfl (.inl rfl)

/-- A command whose operand check passes latches operands that meet R27. -/
theorem accept_inv {i : Instr} {s : State} (hc : operandCheck i s.opa s.opm = none) (hs : s.CauseLegal) :
    (accept i s).Inv := by
  refine ⟨fun _ => rfl, fun _ => opcode_cases i, fun _ => operandCheck_none_modulus hc, fun _ hl => ?_, hs⟩
  cases i with
  | mulmod => cases hl
  | powmod => cases hl
  | sprp =>
    rcases sprpCheck_cases s.opm s.opa with ⟨-, he⟩ | ⟨hd, -⟩
    · cases hc.symm.trans he
    · exact hd

/-- A step ends idle with a legal CAUSE, or accepts under the operand check, or leaves every field R27 speaks of. -/
theorem step_keeps_inv {s t : State} (hs : s.Inv) (h : step s = .next t) : t.Inv := by
  have ⟨_, _, _, _, hlegal⟩ := hs
  cases step_cases h with
  | completion => exact inv_of_idle rfl (.inl rfl)
  | resetAssert => exact inv_of_idle rfl (.inl rfl)
  | commandError _ _ e => exact inv_of_idle rfl (.inr e.code_cases)
  | accept _ _ _ _ _ _ _ hc => exact accept_inv hc hlegal
  | _ => exact hs

/-- Settles O15: from the state after reset, and by everything one step can do. -/
theorem everyStepKeepsTheInvariant : Obligations.EveryStepKeepsTheInvariant :=
  ⟨reset_inv, fun _ _ => step_keeps_inv⟩

/-- Settles O16: after reset the CORE is idle with CAUSE 0, and reset is released. -/
theorem resetMeetsTheInvariant : Obligations.ResetMeetsTheInvariant :=
  ⟨reset_inv, fun _ => rfl⟩

/-- Settles O39: by evaluation of the state after reset. -/
theorem resetValues : Obligations.ResetValues := by
  unfold Obligations.ResetValues
  decide

/-! ### Who writes what -/

/-- Settles O19: only the write of a register and reset touch it. -/
theorem operandRegistersAreTheHosts : Obligations.OperandRegistersAreTheHosts := by
  intro s t h
  cases step_cases h with
  | resetAssert rest hi =>
    exact ⟨fun _ => ⟨rest, .inr ⟨hi, rfl⟩⟩, fun _ => ⟨rest, .inr ⟨hi, rfl⟩⟩, fun _ => ⟨rest, .inr ⟨hi, rfl⟩⟩⟩
  | writeOpa rest v hi => exact ⟨fun _ => ⟨rest, .inl ⟨v, hi, rfl⟩⟩, absurd rfl, absurd rfl⟩
  | writeOpb rest v hi => exact ⟨absurd rfl, fun _ => ⟨rest, .inl ⟨v, hi, rfl⟩⟩, absurd rfl⟩
  | writeOpm rest v hi => exact ⟨absurd rfl, absurd rfl, fun _ => ⟨rest, .inl ⟨v, hi, rfl⟩⟩⟩
  | _ => exact ⟨absurd rfl, absurd rfl, absurd rfl⟩

/-- Settles O20: only the engine's completion and reset write RESULT. -/
theorem resultChangesOnlyAtSuccess : Obligations.ResultChangesOnlyAtSuccess := by
  intro s t h hne
  cases step_cases h with
  | completion rest i hi hb => exact .inl ⟨hb, rfl, rfl, rfl⟩
  | resetAssert rest hi => exact .inr ⟨rest, hi, rfl⟩
  | _ => exact absurd rfl hne

/-- Settles O21: only the engine's completion, an error completion and reset write CAUSE. -/
theorem causeChangesOnlyAtCompletion : Obligations.CauseChangesOnlyAtCompletion := by
  intro s t h hne
  cases step_cases h with
  | completion rest i hi hb => exact ⟨rfl, .inl ⟨hb, hi.imp And.left fun hi => ⟨rest, hi⟩, rfl, rfl⟩⟩
  | commandError rest w e hi hr hb => exact ⟨rfl, .inr (.inl ⟨hb, ⟨w, rest, hi⟩, rfl, e.code_cases⟩)⟩
  | resetAssert rest hi => exact ⟨rfl, .inr (.inr ⟨rest, hi, rfl⟩)⟩
  | _ => exact absurd rfl hne

theorem overrunAfterWrite_of_set {v : Word} (h : v.getLsbD 8 = true) (o : Bool) : overrunAfterWrite v o = false := by
  rw [overrunAfterWrite, if_pos h]

theorem overrunAfterWrite_of_clear {v : Word} (h : v.getLsbD 8 = false) (o : Bool) : overrunAfterWrite v o = o := by
  rw [overrunAfterWrite, if_neg (Bool.not_eq_true _ ▸ h)]

/-- What a step does to OVERRUN: a CMD write while busy sets it, a STATUS write acts by its bit 8, reset clears it, and
nothing else touches it (R22). -/
theorem step_overrun_cases {s t : State} (h : step s = .next t) :
    t.overrun = s.overrun ∨
    (t.overrun = true ∧ s.busy = true ∧ ∃ w rest, s.inputs = .host (.write 0x18 8 w) :: rest) ∨
    (t.overrun = false ∧ ∃ v rest, s.inputs = .host (.write 0x20 8 v) :: rest ∧ v.getLsbD 8 = true) ∨
    (t.overrun = false ∧ ∃ rest, s.inputs = .resetAssert :: rest) := by
  cases step_cases h with
  | overrun rest w hi hr hb => exact .inr (.inl ⟨rfl, hb, w, rest, hi⟩)
  | writeStatus rest v hi =>
    cases hv : v.getLsbD 8
    · exact .inl (overrunAfterWrite_of_clear hv _)
    · exact .inr (.inr (.inl ⟨overrunAfterWrite_of_set hv _, v, rest, hi, hv⟩))
  | resetAssert rest hi => exact .inr (.inr (.inr ⟨rfl, rest, hi⟩))
  | _ => exact .inl rfl

/-- A CMD write while busy, as the whole step (R61). -/
theorem step_commandWrite_busy {s : State} {rest : List Input} {w : Word} (hr : s.inReset = false) (hb : s.busy = true)
    (hi : s.inputs = .host (.write 0x18 8 w) :: rest) :
    step s = .next (overrunWrite (respond .written { s with inputs := rest })) := by
  rw [step_write (r := .cmd) hi hr]
  exact if_pos hb

/-- Settles O22: by what a step does to OVERRUN, and by the two writes as whole steps. -/
theorem overrunIsSticky : Obligations.OverrunIsSticky := by
  refine ⟨fun s t h => ?_, fun s rest v hr hi => ?_, fun s rest w hr hb hi => ?_, rfl⟩
  · rcases step_overrun_cases h with heq | ⟨ht, hset⟩ | ⟨ht, hclear⟩ | ⟨ht, hreset⟩
    · exact ⟨fun h0 h1 => by simp [heq, h0] at h1, fun h1 h0 => by simp [heq, h1] at h0⟩
    · exact ⟨fun _ _ => hset, fun _ h0 => by simp [ht] at h0⟩
    · exact ⟨fun _ h1 => by simp [ht] at h1, fun _ _ => .inl hclear⟩
    · exact ⟨fun _ h1 => by simp [ht] at h1, fun _ _ => .inr hreset⟩
  · exact ⟨_, step_write (r := .status) hi hr, fun hv => overrunAfterWrite_of_set hv _,
      fun hv => overrunAfterWrite_of_clear hv _⟩
  · exact ⟨_, step_commandWrite_busy hr hb hi, rfl⟩

/-- Settles O23: only an accept and reset write the latches. -/
theorem latchesChangeOnlyAtAccept : Obligations.LatchesChangeOnlyAtAccept := by
  intro s t h
  cases step_cases h with
  | accept rest w i hi hr hb hd =>
    exact .inr (.inl ⟨hb, rfl, rfl, rfl, rfl, w, rest, hi, opcode_of_decode hd⟩)
  | resetAssert rest hi => exact .inr (.inr ⟨rest, hi⟩)
  | _ => exact .inl ⟨rfl, rfl, rfl, rfl⟩

/-! ### The reserved bits of STATUS -/

/-- DONE and BUSY fill bits 1 and 0, CAUSE and OVERRUN begin at bit 4 and end at bit 8 (R18). -/
theorem statusWord_reserved (s : State) {k : Nat} (hk : k = 2 ∨ k = 3 ∨ 9 ≤ k) :
    (statusWord s).getLsbD k = false := by
  have ho := Bool.toNat_le s.overrun
  have hd := Bool.toNat_le s.done
  have hb := Bool.toNat_le s.busy
  rw [BitVec.getLsbD, statusWord_toNat]
  rcases hk with rfl | rfl | hk
  · rw [Nat.testBit_eq_decide_div_mod_eq, decide_eq_false_iff_not]
    omega
  · rw [Nat.testBit_eq_decide_div_mod_eq, decide_eq_false_iff_not]
    omega
  · have hpow : 2 ^ 9 ≤ 2 ^ k := Nat.pow_le_pow_right (by decide) hk
    exact Nat.testBit_lt_two_pow (by omega)

/-- Settles O25: the read is STATUS's word, and the write looks at bit 8 alone. -/
theorem reservedStatusBitsReadZero : Obligations.ReservedStatusBitsReadZero := by
  refine ⟨fun s k => statusWord_reserved s, fun s v v' hv => ?_⟩
  simp only [hostWrite, writeStatus, overrunAfterWrite, hv]

/-! ### The latches of an idle CORE -/

/-- The inversion of `step_cases` is exact: each effect it lists is the step. -/
theorem StepEffect.step_eq {s t : State} (h : StepEffect s t) : step s = .next t := by
  cases h with
  | wait hi hb => rw [step_nil hi, engineTurn_idle hb]
  | completion rest i hi hb hl hc =>
    have hturn : engineTurn { s with inputs := rest } =
        .next (complete (.success (resultOf i s)) { s with inputs := rest }) := by
      rw [engineTurn_of_latched (s := { s with inputs := rest }) hb (opcode_of_ofOpcode hl) hc, resultOf_inputs]
    rcases hi with ⟨hi, rfl⟩ | hi
    · rw [step_nil hi, ← hturn, ← hi]
    · rw [step_engineComplete hi, hturn]
  | engineIdle rest hi hb => rw [step_engineComplete hi, engineTurn_idle (s := { s with inputs := rest }) hb]
  | engineWork rest hi => exact step_engineWork hi
  | resetAssert rest hi => exact step_resetAssert hi
  | resetRelease rest hi => exact step_resetRelease hi
  | read rest r hi hr => exact step_read hi hr
  | refusedRead rest off n hi hr hn =>
    rw [step_host_eq hi, hostAccess_refusedRead (s := { s with inputs := rest }) hr hn]
  | refusedWrite rest off n v hi hr hn =>
    rw [step_host_eq hi, hostAccess_refusedWrite (s := { s with inputs := rest }) hr hn]
  | writeOpa rest v hi hr => exact step_write (r := .opa) hi hr
  | writeOpb rest v hi hr => exact step_write (r := .opb) hi hr
  | writeOpm rest v hi hr => exact step_write (r := .opm) hi hr
  | writeStatus rest v hi hr => exact step_write (r := .status) hi hr
  | writeIgnored rest r v hi hr hs => rcases hs with rfl | rfl | rfl <;> exact step_write hi hr
  | overrun rest w hi hr hb => exact step_commandWrite_busy hr hb hi
  | commandError rest w e hi hr hb he => exact (step_write (r := .cmd) hi hr).trans (commandWrite_refused hb he)
  | accept rest w i hi hr hb hd hc =>
    exact (step_write (r := .cmd) hi hr).trans ((commandWrite_command hd _).trans (exec_accept i hb hc))

/-- A host access while reset is asserted, as the whole step (R111). -/
theorem step_host_inReset {s : State} {a : Access} {rest : List Input} (hi : s.inputs = .host a :: rest)
    (hr : s.inReset = true) : step s = .fault .hostAccessInReset :=
  (step_host_eq hi).trans (hostAccess_inReset (s := { s with inputs := rest }) hr a)

/-- While BUSY = 0 a step stops only on a host access during reset (entry 7). -/
theorem step_fault_of_idle {s : State} {f : Fault} (hb : s.busy = false) (h : step s = .fault f) :
    f = .hostAccessInReset ∧ s.inReset = true ∧ ∃ a rest, s.inputs = .host a :: rest := by
  cases hi : s.inputs with
  | nil => rw [step_nil hi, engineTurn_idle hb] at h; cases h
  | cons e rest =>
    cases e with
    | host a =>
      cases hr : s.inReset with
      | false =>
        obtain ⟨t, ht⟩ := hostAccess_next (s := { s with inputs := rest }) hr a
        rw [step_host_eq hi, ht] at h
        cases h
      | true =>
        cases (step_host_inReset hi hr).symm.trans h
        exact ⟨rfl, rfl, a, rest, rfl⟩
    | engineWork => rw [step_engineWork hi] at h; cases h
    | engineComplete => rw [step_engineComplete hi, engineTurn_idle (s := { s with inputs := rest }) hb] at h; cases h
    | resetAssert => rw [step_resetAssert hi] at h; cases h
    | resetRelease => rw [step_resetRelease hi] at h; cases h

/-- The state with other values in its four latches. -/
def State.withLatches (op : BitVec 8) (a b m : Word) (s : State) : State :=
  { s with lop := op, la := a, lb := b, lm := m }

/-- No place of the window shows a latch (R40). -/
theorem readSlot_withLatches (r : Slot) (op : BitVec 8) (a b m : Word) (s : State) :
    readSlot r (s.withLatches op a b m) = readSlot r s :=
  readSlot_congr rfl rfl rfl rfl rfl r

/-- What an idle CORE's step does once its latches are replaced: an accept and a reset write all four, so the next state is
the same; every other step carries the replaced latches along. -/
theorem StepEffect.withLatches {s t : State} (op : BitVec 8) (a b m : Word) (hb : s.busy = false)
    (h : StepEffect s t) :
    StepEffect (s.withLatches op a b m) t ∨
      (t.busy = false ∧ StepEffect (s.withLatches op a b m) (t.withLatches op a b m)) := by
  cases h with
  | accept rest w i hi hr _ hd hc => exact .inl (.accept rest w i hi hr hb hd hc)
  | resetAssert rest hi => exact .inl (.resetAssert rest hi)
  | completion _ _ _ hbusy => cases hb.symm.trans hbusy
  | overrun _ _ _ _ hbusy => cases hb.symm.trans hbusy
  | read rest r hi hr =>
    rw [← readSlot_withLatches r op a b m s]
    exact .inr ⟨hb, .read rest r hi hr⟩
  | wait hi => exact .inr ⟨hb, .wait hi hb⟩
  | engineIdle rest hi => exact .inr ⟨hb, .engineIdle rest hi hb⟩
  | engineWork rest hi => exact .inr ⟨hb, .engineWork rest hi⟩
  | resetRelease rest hi => exact .inr ⟨hb, .resetRelease rest hi⟩
  | refusedRead rest off n hi hr hn => exact .inr ⟨hb, .refusedRead rest off n hi hr hn⟩
  | refusedWrite rest off n v hi hr hn => exact .inr ⟨hb, .refusedWrite rest off n v hi hr hn⟩
  | writeOpa rest v hi hr => exact .inr ⟨hb, .writeOpa rest v hi hr⟩
  | writeOpb rest v hi hr => exact .inr ⟨hb, .writeOpb rest v hi hr⟩
  | writeOpm rest v hi hr => exact .inr ⟨hb, .writeOpm rest v hi hr⟩
  | writeStatus rest v hi hr => exact .inr ⟨hb, .writeStatus rest v hi hr⟩
  | writeIgnored rest r v hi hr hs => exact .inr ⟨hb, .writeIgnored rest r v hi hr hs⟩
  | commandError rest w e hi hr _ he => exact .inr ⟨rfl, .commandError rest w e hi hr hb he⟩

/-- Settles O24: reads show no latch, a next state is compared by its effect, and the one fault of an idle CORE depends on
the level of reset only. -/
theorem idleLatchesAreNeverRead : Obligations.IdleLatchesAreNeverRead := by
  intro s op a b m hb
  refine ⟨fun r => readSlot_withLatches r op a b m s, fun t h => ?_, fun f h => ?_⟩
  · rcases (step_cases h).withLatches op a b m hb with ht | ⟨hidle, ht⟩
    · exact ⟨t, ht.step_eq, .inl rfl⟩
    · exact ⟨_, ht.step_eq, .inr ⟨hidle, rfl⟩⟩
  · obtain ⟨rfl, hr, acc, rest, hi⟩ := step_fault_of_idle hb h
    exact step_host_inReset (s := s.withLatches op a b m) hi hr

end Sys2Proof.Machine

/-! ### Command words as bytes (R38, R50) -/

namespace Sys2Proof

theorem decode_encode (i : Instr) : decode (encode i) = .command i := by
  cases i with
  | mulmod => rfl
  | powmod => rfl
  | sprp => rfl

/-- No other word decodes to a command, since its two fields determine a word. -/
theorem decode_eq_command_iff (w : Word) (i : Instr) : decode w = .command i ↔ w = encode i := by
  refine ⟨fun h => ?_, fun h => h ▸ decode_encode i⟩
  obtain ⟨hrsvd, hop⟩ := (decode_eq_command_iff_fields w i).1 h
  obtain ⟨hrsvd', hop'⟩ := (decode_eq_command_iff_fields _ i).1 (decode_encode i)
  rw [word_eq_fields w, word_eq_fields (encode i), hrsvd, hop, hrsvd', hop']

theorem bytesOf_eq (w : Word) :
    bytesOf w = [byteOf w 0, byteOf w 1, byteOf w 2, byteOf w 3, byteOf w 4, byteOf w 5, byteOf w 6, byteOf w 7] := rfl

theorem wordOfBytes_byteOf (w : Word) :
    wordOfBytes (byteOf w 0) (byteOf w 1) (byteOf w 2) (byteOf w 3) (byteOf w 4) (byteOf w 5) (byteOf w 6)
      (byteOf w 7) = w := by
  apply BitVec.eq_of_toNat_eq
  rw [wordOfBytes_toNat]
  simp only [byteOf_toNat]
  omega

/-- Taking a word apart undoes putting it together: no byte is lost and none is moved. -/
theorem bytesOf_wordOfBytes (b0 b1 b2 b3 b4 b5 b6 b7 : Byte) :
    bytesOf (wordOfBytes b0 b1 b2 b3 b4 b5 b6 b7) = [b0, b1, b2, b3, b4, b5, b6, b7] := by
  have hw := wordOfBytes_toNat b0 b1 b2 b3 b4 b5 b6 b7
  have h0 := b0.isLt
  have h1 := b1.isLt
  have h2 := b2.isLt
  have h3 := b3.isLt
  have h4 := b4.isLt
  have h5 := b5.isLt
  have h6 := b6.isLt
  have h7 := b7.isLt
  simp only [bytesOf_eq, List.cons.injEq, and_true, ← BitVec.toNat_inj, byteOf_toNat, hw]
  omega

/-- The byte decoder reads exactly the eight bytes of a word that decodes. -/
theorem decodeBytes_bytesOf_append (w : Word) (rest : List Byte) {i : Instr} (h : decode w = .command i) :
    decodeBytes (bytesOf w ++ rest) = .command i rest := by
  simp only [bytesOf_eq, List.cons_append, List.nil_append, decodeBytes, wordOfBytes_byteOf, h]

/-- When the byte decoder answers a command, it has read the bytes of a word that decodes to it. -/
theorem bytes_of_decodeBytes {bs rest : List Byte} {i : Instr} (h : decodeBytes bs = .command i rest) :
    ∃ w, decode w = .command i ∧ bs = bytesOf w ++ rest := by
  unfold decodeBytes at h
  split at h
  · next b0 b1 b2 b3 b4 b5 b6 b7 rest' =>
    split at h
    · next j hj =>
      cases h
      exact ⟨_, hj, by rw [bytesOf_wordOfBytes]; rfl⟩
    · cases h
  · cases h

/-- Settles O3: the bytes of a word determine it, and the word of a command is the only one that decodes to it. -/
theorem decodeAndEncodeAgreeOnBytes : Obligations.DecodeAndEncodeAgreeOnBytes := by
  refine fun i bs rest => ⟨fun h => ?_, fun h => h ▸ decodeBytes_bytesOf_append _ rest (decode_encode i)⟩
  obtain ⟨w, hw, rfl⟩ := bytes_of_decodeBytes h
  rw [(decode_eq_command_iff w i).1 hw, encodeBytes]

end Sys2Proof

/-! ### Host accesses as whole steps (R37, R40, R41) -/

namespace Sys2Proof.Machine

/-- Settles O26: the read as a whole step, with STATUS as a number. -/
theorem readsReturnTheTableValue : Obligations.ReadsReturnTheTableValue := by
  intro s rest r hr hi
  refine ⟨readSlot r s, step_read hi hr, ?_⟩
  cases r with
  | status => exact statusWord_toNat s
  | _ => rfl

/-- A CMD write leaves the bus answer alone. -/
theorem commandWrite_response {w : Word} {s t : State} (h : commandWrite w s = .next t) : t.response = s.response := by
  rcases commandWrite_cases w s with ⟨-, hw⟩ | ⟨-, e, -, hw⟩ | ⟨-, i, -, -, hw⟩ <;>
    obtain rfl := Host.Outcome.next.inj (hw.symm.trans h)
  · exact overrunWrite_response s
  · exact complete_error_response e s
  · exact accept_response i s

/-- Settles O27: the write as a whole step; the CMD write is carried on by `commandWrite`. -/
theorem writesHaveTheListedEffect : Obligations.WritesHaveTheListedEffect := by
  intro s rest r v hr hi
  obtain ⟨t, ht⟩ := hostWrite_next r v (respond .written { s with inputs := rest })
  refine ⟨t, (step_write hi hr).trans ht, ?_⟩
  cases r with
  | cmd =>
    have hresp : t.response = .written := commandWrite_response ht
    rw [hresp]
    exact ht
  | _ => cases ht; rfl

/-- A step at a host access that is not admitted, read or write (R37, R97). -/
theorem step_refused {s : State} {rest : List Input} {off : Int} {n : Nat} (hn : slotAt off n = none)
    (hr : s.inReset = false)
    (hi : s.inputs = .host (.read off n) :: rest ∨ ∃ v, s.inputs = .host (.write off n v) :: rest) :
    step s = .next (busError off { s with inputs := rest }) := by
  rcases hi with hi | ⟨v, hi⟩
  · exact (StepEffect.refusedRead rest off n hi hr hn).step_eq
  · exact (StepEffect.refusedWrite rest off n v hi hr hn).step_eq

/-- Settles O28: the port's check is the rule's condition. -/
theorem accessesAreAdmittedByWidthAndOffset : Obligations.AccessesAreAdmittedByWidthAndOffset := by
  intro off n
  rw [← admitted_iff]
  refine ⟨fun h => ?_, fun h s rest hr hi => step_refused (slotAt_eq_none h) hr hi⟩
  obtain ⟨r, hslot⟩ := slotAt_of_admitted h
  exact ⟨r, hslot, (slotAt_eq_some hslot).1.symm⟩

/-- Settles O5: a CMD write's step is `commandWrite`, which carries a legal word on by its command's meaning. -/
theorem stepRunsTheDecodedCommand : Obligations.StepRunsTheDecodedCommand := by
  have hstep : ∀ (s : State) (rest : List Input) (w : Word) (i : Instr), s.inputs = .host (.write 0x18 8 w) :: rest →
      s.inReset = false → decode w = .command i → step s = exec i { s with inputs := rest, response := .written } :=
    fun s rest w i hi hr hd => (step_write (r := .cmd) hi hr).trans (commandWrite_command hd _)
  refine ⟨hstep, fun s i => hstep (s.withFetchWord 64 (encode i).toNat) s.inputs (encode i) i ?_ rfl (decode_encode i)⟩
  rw [State.withFetchWord, Nat.mod_eq_of_lt (encode i).isLt, BitVec.ofNat_toNat, BitVec.setWidth_eq]

/-! ### The window on a byte-addressed platform (R34, R38, R49) -/

theorem windowBase_aligned : Config.windowBase % 64 = 0 := Nat.mul_mod_right 64 _

theorem offset_bounds (r : Slot) : r.offset % 8 = 0 ∧ 0 ≤ r.offset ∧ r.offset < 64 := by
  cases r <;> decide

/-- Byte `k` of a place stands `k` bytes past its offset (R38). -/
theorem windowByte_offset_add (r : Slot) (s : State) {k : Nat} (hk : k < 8) :
    windowByte (r.offset + k) s = some (byteOf (readSlot r s) k) := by
  obtain ⟨haligned, -, -⟩ := offset_bounds r
  have hplace : 8 * ((r.offset + k) / 8) = r.offset := by omega
  have hbyte : ((r.offset + k) % 8).toNat = k := by omega
  rw [windowByte, hplace, ofOffset_offset, hbyte]

/-- Outside the 64 bytes there is no place. -/
theorem windowByte_outside {off : Int} (h : off < 0 ∨ 64 ≤ off) (s : State) : windowByte off s = none := by
  have hnone : Slot.ofOffset (8 * (off / 8)) = none := by
    cases hplace : Slot.ofOffset (8 * (off / 8)) with
    | none => rfl
    | some r =>
      have hoff := offset_of_ofOffset hplace
      obtain ⟨-, hlow, hhigh⟩ := offset_bounds r
      omega
  rw [windowByte, hnone]

/-- The platform's address `base + off` is the window's offset `off`. -/
theorem platformOffset_eq {addr : Nat} {off : Int} (h : (addr : Int) = Config.windowBase + off) :
    platformOffset addr = off := by
  rw [platformOffset, h, add_sub_cancel_left]

/-- Settles O29: addresses are turned into offsets, and the window's bytes are those of its places. -/
theorem platformSeesLittleEndianWindow : Obligations.PlatformSeesLittleEndianWindow := by
  refine ⟨windowBase_aligned, fun s r addr k hk ha => ?_, fun s addr ha => ?_, fun r addr n v ha => ?_⟩
  · refine ⟨byteOf (readSlot r s) k, ?_, byteOf_toNat _ k⟩
    rw [platformByte, platformOffset_eq (ha.trans (Int.add_assoc ..)), windowByte_offset_add r s hk]
  · refine windowByte_outside ?_ s
    unfold platformOffset
    omega
  · rw [platformRead, platformWrite, platformOffset_eq ha]
    exact ⟨rfl, rfl⟩

/-! ### A command in flight is undisturbed (R47, R66, R119) -/

/-- In `t` the command in flight in `s` is still in flight, on the same latches, and reset is released. -/
structure CarriesCommand (s t : State) : Prop where
  busy : t.busy = true
  inReset : t.inReset = false
  lop : t.lop = s.lop
  la : t.la = s.la
  lb : t.lb = s.lb
  lm : t.lm = s.lm

theorem CarriesCommand.trans {s t u : State} (hst : CarriesCommand s t) (htu : CarriesCommand t u) :
    CarriesCommand s u :=
  ⟨htu.busy, htu.inReset, htu.lop.trans hst.lop, htu.la.trans hst.la, htu.lb.trans hst.lb, htu.lm.trans hst.lm⟩

/-- The value a completion writes depends on the latches only (R67). -/
theorem CarriesCommand.resultOf_eq {s t : State} (h : CarriesCommand s t) (i : Instr) :
    resultOf i t = resultOf i s := by
  cases i <;> simp [resultOf, mulmodResult, powmodResult, sprpResult, h.la, h.lb, h.lm]

/-- Host accesses and internal engine steps run through while a command is in flight, and carry it along. -/
theorem runN_through_hostOrWork (between rest : List Input) : ∀ s : State, s.busy = true → s.inReset = false →
    s.inputs = between ++ rest → (∀ e ∈ between, e.isHostOrWork = true) →
    ∃ t, CarriesCommand s t ∧ t.inputs = rest ∧ ∀ k, runN (between.length + k) s = runN k t := by
  induction between with
  | nil =>
    intro s hb hr hi _
    exact ⟨s, ⟨hb, hr, rfl, rfl, rfl, rfl⟩, hi, fun k => by rw [List.length_nil, Nat.zero_add]⟩
  | cons e between ih =>
    intro s hb hr hi hall
    have he : e.isHostOrWork = true := hall e List.mem_cons_self
    obtain ⟨u, hstep⟩ := step_next_of_hostOrWork hi he hr
    obtain ⟨hub, hur, hlop, hla, hlb, hlm, hui⟩ := step_keeps_command_in_flight hi he hb hr hstep
    obtain ⟨t, hut, hti, hrun⟩ := ih u hub hur hui fun e' he' => hall e' (List.mem_cons_of_mem e he')
    refine ⟨t, CarriesCommand.trans ⟨hub, hur, hlop, hla, hlb, hlm⟩ hut, hti, fun k => ?_⟩
    rw [List.length_cons, Nat.add_right_comm, runN_succ_of_step hstep, hrun]

/-- Settles O31: the accept's latches are carried to the completion, which writes their value. -/
theorem commandInFlightIsUndisturbed : Obligations.CommandInFlightIsUndisturbed := by
  intro i s t hidle hr hexec hbusy between rest hall
  obtain ⟨hc, rfl⟩ := exec_accepted hidle hexec hbusy
  obtain ⟨v, hv, hvi, hrun⟩ := runN_through_hostOrWork between (.engineComplete :: rest)
    { accept i s with inputs := between ++ .engineComplete :: rest } rfl hr rfl hall
  have hcheck : operandCheck i v.la v.lm = none := by
    rw [hv.la, hv.lm]
    exact hc
  refine ⟨_, (hrun 1).trans (runN_succ_of_step (step_completes_of_latched hvi hv.busy hv.lop hcheck) 0),
    rfl, rfl, rfl, rfl, ?_⟩
  rw [complete_success_result, hv.resultOf_eq]
  cases i <;> rfl

/-! ### An idle CORE keeps its result (R44) -/

/-- What stays of an idle CORE: BUSY 0, and RESULT, CAUSE and DONE as they were. -/
structure StaysIdle (s t : State) : Prop where
  busy : t.busy = false
  result : t.result = s.result
  cause : t.cause = s.cause
  done : t.done = s.done

theorem StaysIdle.trans {s t u : State} (hst : StaysIdle s t) (htu : StaysIdle t u) : StaysIdle s u :=
  ⟨htu.busy, htu.result.trans hst.result, htu.cause.trans hst.cause, htu.done.trans hst.done⟩

theorem commandWrite_startsSomething (w : Word) : (Input.host (.write 0x18 8 w)).startsNothing = false := rfl

theorem resetAssert_startsSomething : Input.resetAssert.startsNothing = false := rfl

/-- While idle only a CMD write and reset touch BUSY, RESULT, CAUSE or DONE. -/
theorem step_staysIdle {s t : State} (hb : s.busy = false) (hq : ∀ e ∈ s.inputs.head?, e.startsNothing = true)
    (h : step s = .next t) : StaysIdle s t := by
  have hstarts : ∀ {e : Input} {rest : List Input}, s.inputs = e :: rest → e.startsNothing ≠ false :=
    fun hi => by simp [hq _ (by rw [hi]; rfl)]
  cases step_cases h with
  | completion _ _ _ hbusy => cases hb.symm.trans hbusy
  | overrun _ _ _ _ hbusy => cases hb.symm.trans hbusy
  | resetAssert _ hi => exact absurd resetAssert_startsSomething (hstarts hi)
  | commandError _ w _ hi => exact absurd (commandWrite_startsSomething w) (hstarts hi)
  | accept _ w _ hi => exact absurd (commandWrite_startsSomething w) (hstarts hi)
  | _ => exact ⟨hb, rfl, rfl, rfl⟩

theorem runN_staysIdle (k : Nat) : ∀ s t : State, s.busy = false →
    (∀ e ∈ s.inputs.take k, e.startsNothing = true) → runN k s = .next t → StaysIdle s t := by
  induction k with
  | zero =>
    intro s t hb _ h
    cases h
    exact ⟨hb, rfl, rfl, rfl⟩
  | succ k ih =>
    intro s t hb hq h
    obtain ⟨u, hstep, hrun⟩ := runN_succ h
    have hhead : ∀ e ∈ s.inputs.head?, e.startsNothing = true := fun e he => hq e <| by
      rw [← List.cons_head?_tail he, List.take_succ_cons]
      exact List.mem_cons_self
    have htail : ∀ e ∈ u.inputs.take k, e.startsNothing = true := fun e he => hq e <| by
      rw [step_inputs hstep] at he
      cases hi : s.inputs with
      | nil => simp [hi] at he
      | cons e' rest => rw [hi] at he; exact List.mem_cons_of_mem e' he
    have hsu := step_staysIdle hb hhead hstep
    exact hsu.trans (ih u t hsu.busy htail hrun)

/-- Settles O35: every step of the run keeps the CORE idle and its result. -/
theorem resultStaysUntilTheNextCommand : Obligations.ResultStaysUntilTheNextCommand := by
  intro k s t hb hq h
  obtain ⟨hbusy, hresult, hcause, hdone⟩ := runN_staysIdle k s t hb hq h
  exact ⟨hbusy, hresult, hcause, hdone⟩

end Sys2Proof.Machine

/-! ### The opcode map on whole words (R52, R55, R57) -/

namespace Sys2Proof

/-- The decoder answers one thing, so a word is illegal unless it is some command's. -/
theorem illegal_iff_ne_encode (w : Word) : (∃ why, decode w = .illegal why) ↔ ∀ i, w ≠ encode i := by
  constructor
  · rintro ⟨why, hw⟩ i hi
    cases hw.symm.trans ((decode_eq_command_iff w i).2 hi)
  · intro hne
    exact (decode_cases w).resolve_left fun ⟨i, hi⟩ => hne i ((decode_eq_command_iff w i).1 hi)

/-- The illegal words with the three command words written out (R52). -/
theorem illegal_iff (w : Word) : (∃ why, decode w = .illegal why) ↔ w ≠ 1 ∧ w ≠ 2 ∧ w ≠ 3 := by
  rw [illegal_iff_ne_encode]
  refine ⟨fun h => ⟨h .mulmod, h .powmod, h .sprp⟩, fun ⟨h1, h2, h3⟩ i => ?_⟩
  cases i with
  | mulmod => exact h1
  | powmod => exact h2
  | sprp => exact h3

/-- R55's condition on the two fields of R51, as numbers. -/
theorem illegal_iff_fields (w : Word) : (∃ why, decode w = .illegal why) ↔
    w.toNat / 2 ^ 8 ≠ 0 ∨ ¬(w.toNat % 2 ^ 8 = 1 ∨ w.toNat % 2 ^ 8 = 2 ∨ w.toNat % 2 ^ 8 = 3) := by
  have hnum : w ≠ 1 ∧ w ≠ 2 ∧ w ≠ 3 ↔ w.toNat ≠ 1 ∧ w.toNat ≠ 2 ∧ w.toNat ≠ 3 := by
    simp [← BitVec.toNat_inj]
  rw [illegal_iff, hnum]
  omega

/-- Of the 2^64 words all but the three command words are illegal. -/
theorem card_illegal : Nat.card {w : Word // ∃ why, decode w = .illegal why} = 2 ^ 64 - 3 := by
  have hcompl : {w : Word | ∃ why, decode w = .illegal why} = (({1, 2, 3} : Finset Word) : Set Word)ᶜ := by
    ext w
    simpa using illegal_iff w
  have hcommands : ({1, 2, 3} : Finset Word).card = 3 := by decide
  have hwords : Nat.card Word = 2 ^ 64 := by
    rw [Nat.card_congr BitVec.equivFin.toEquiv, Nat.card_fin]
  calc Nat.card {w : Word // ∃ why, decode w = .illegal why}
      = ({w : Word | ∃ why, decode w = .illegal why}).ncard := Nat.card_coe_set_eq _
    _ = 2 ^ 64 - 3 := by rw [hcompl, Set.ncard_compl, Set.ncard_coe_finset, hcommands, hwords]

/-- The table has one row a command: it compares the whole word with the command's. -/
theorem mem_opcodeTable_iff (r : OpcodeRow) :
    r ∈ opcodeTable ↔ r.mask = 0xFFFFFFFFFFFFFFFF ∧ r.pattern = encode r.instr := by
  obtain ⟨i, mask, pattern⟩ := r
  cases i <;> simp [opcodeTable, encode]

/-- A row looks at all 64 bits (R57). -/
theorem and_tableMask (w : Word) : w &&& 0xFFFFFFFFFFFFFFFF = w := BitVec.and_allOnes

/-- A row of the command's matches exactly the command's word. -/
theorem opcodeTable_matches_iff (w : Word) (i : Instr) :
    (∃ r ∈ opcodeTable, r.instr = i ∧ w &&& r.mask = r.pattern) ↔ w = encode i := by
  constructor
  · rintro ⟨r, hr, rfl, hw⟩
    obtain ⟨hmask, hpattern⟩ := (mem_opcodeTable_iff r).1 hr
    rwa [hmask, hpattern, and_tableMask] at hw
  · rintro rfl
    exact ⟨⟨i, 0xFFFFFFFFFFFFFFFF, encode i⟩, (mem_opcodeTable_iff _).2 ⟨rfl, rfl⟩, rfl, and_tableMask _⟩

/-- Settles O1: a command decodes from its word alone, which is the word its row matches. -/
theorem decoderFollowsTheOpcodeMap : Obligations.DecoderFollowsTheOpcodeMap := fun w =>
  ⟨decode_eq_command_iff w .mulmod, decode_eq_command_iff w .powmod, decode_eq_command_iff w .sprp, illegal_iff w,
    fun i => (decode_eq_command_iff w i).trans (opcodeTable_matches_iff w i).symm,
    fun r => (mem_opcodeTable_iff r).1⟩

/-- Settles O4: by evaluation of the decoder at the seven words. -/
theorem wordsOfTheOpcodeMap : Obligations.WordsOfTheOpcodeMap := by
  unfold Obligations.WordsOfTheOpcodeMap
  decide

end Sys2Proof

/-! ### Illegal words at the CMD write (R55, R61, R93) -/

namespace Sys2Proof.Machine

/-- A CMD write while a command is in flight, whatever its word (R61). -/
theorem commandWrite_busy (w : Word) {s : State} (hb : s.busy = true) : commandWrite w s = .next (overrunWrite s) :=
  if_pos hb

/-- Settles O2: by R55's condition and the count of the three command words; the effects are the error completion and the
overrun of a CMD write. -/
theorem illegalWordsAreRefused : Obligations.IllegalWordsAreRefused := by
  refine ⟨illegal_iff_fields, ⟨_, rfl⟩, card_illegal, fun w s hw => ⟨fun hb => ?_, fun hb => ?_⟩⟩
  · exact commandWrite_refused hb (.inl ⟨hw, rfl⟩)
  · exact commandWrite_busy w hb

end Sys2Proof.Machine

/-! ### The host's `wr` and `rd` lines (R59) -/

namespace Sys2Proof.Machine

/-- With no event waiting, the event delivered is the only one. -/
theorem deliver_of_noInputs {S : HostSystem} (hi : S.core.inputs = []) (e : Input) :
    S.deliver e = step { S.core with inputs := [e] } := by
  rw [HostSystem.deliver, hi]

/-- A `wr` line whose value is known and whose access the machine takes (R59). -/
theorem wr_of_step {S : HostSystem} {r : Slot} {x : HostValue} {v : Word} {c : State} (hi : S.core.inputs = [])
    (hv : S.value x = .ok v) (hstep : step { S.core with inputs := [.host (.write r.offset 8 v)] } = .next c) :
    S.wr r x = .next { S with core := c, line := S.line + 1, trace := S.trace ++ [.write r.offset v] } := by
  simp only [HostSystem.wr, hv, deliver_of_noInputs hi, hstep]

/-- A `wr` line stops at a register no line has written (R59). -/
theorem wr_unwritten {S : HostSystem} {h : HostReg} (hu : S.reg h = none) (r : Slot) :
    S.wr r (.reg h) = .fault (.unwrittenRegister h) := by
  simp only [HostSystem.wr, HostSystem.value, hu]

/-- An `rd` line's access changes nothing of the CORE but the bus answer (R40). -/
theorem deliver_read {S : HostSystem} (hr : S.core.inReset = false) (hi : S.core.inputs = []) (r : Slot) :
    S.deliver (.host (.read r.offset 8)) = .next (respond (.data (readSlot r S.core)) S.core) := by
  have hcore : ({ S.core with inputs := [] } : State) = S.core := by rw [← hi]
  rw [deliver_of_noInputs hi, step_read (s := { S.core with inputs := [.host (.read r.offset 8)] }) rfl hr,
    readSlot_inputs, hcore]

/-- An `rd` line puts the place's read value into the host register (R59). -/
theorem rd_eq {S : HostSystem} (hr : S.core.inReset = false) (hi : S.core.inputs = []) (h : HostReg) (r : Slot) :
    S.rd h r = .next { S.setReg h (readSlot r S.core) with
      core := respond (.data (readSlot r S.core)) S.core
      trace := S.trace ++ [.read r.offset (readSlot r S.core)] } := by
  simp only [HostSystem.rd, deliver_read hr hi, respond_response]

/-- Settles O52: each line is the one access it delivers to the machine. -/
theorem hostLinesPerformWindowAccesses : Obligations.HostLinesPerformWindowAccesses := by
  intro S r hr hi
  refine ⟨fun v => ?_, fun h => rd_eq hr hi h r, fun h hu => wr_unwritten hu r⟩
  obtain ⟨c, hc⟩ := hostWrite_next r v (respond .written { S.core with inputs := [] })
  have hstep : step { S.core with inputs := [.host (.write r.offset 8 v)] } = .next c :=
    (step_write (s := { S.core with inputs := [.host (.write r.offset 8 v)] }) rfl hr).trans hc
  exact ⟨c, hstep, wr_of_step (x := .imm v) hi rfl hstep⟩

end Sys2Proof.Machine

/-! ### The CMD write: its checks in order, its accept and its frame (R61 to R64, R69, R99) -/

namespace Sys2Proof.Machine

/-- R83's domain as the condition under which SPRP's operand check passes. -/
theorem sprpCheck_none {n a : Word} :
    sprpCheck n a = none ↔ n.toNat % 2 = 1 ∧ 3 < n.toNat ∧ a.toNat < n.toNat := by
  rcases sprpCheck_cases n a with ⟨hout, hc⟩ | ⟨hin, hc⟩
  · simp [hc, hout]
  · simp [hc, hin]

theorem sprpCheck_some {n a : Word} (h : ¬(n.toNat % 2 = 1 ∧ 3 < n.toNat ∧ a.toNat < n.toNat)) :
    sprpCheck n a = some .sprpDomain :=
  if_neg (mt (inSprpDomain_iff n a).1 h)

/-- Settles O12: by R63's two kinds of completion. -/
theorem completeWritesResultOnlyOnSuccess : Obligations.CompleteWritesResultOnlyOnSuccess := by
  intro s
  exact ⟨fun v => rfl, fun c => ⟨rfl, rfl, rfl, rfl, rfl, rfl, rfl, rfl⟩, rfl, rfl, rfl⟩

/-- Settles O7: the hypotheses are those under which the command's own operand check passes. -/
theorem everyCommandIsAccepted : Obligations.EveryCommandIsAccepted := by
  refine ⟨fun s hb hm => ?_, fun s hb hm => ?_, fun s hb hodd hbig hlt => ?_⟩
  · exact exec_accept .mulmod hb (modulusCheck_none.2 hm)
  · exact exec_accept .powmod hb (modulusCheck_none.2 hm)
  · exact exec_accept .sprp hb (sprpCheck_none.2 ⟨hodd, hbig, hlt⟩)

/-- Settles O11: the CMD write is an overrun whatever its word, and so is the whole step. -/
theorem commandWhileBusyIsAnOverrun : Obligations.CommandWhileBusyIsAnOverrun := by
  refine ⟨fun s w hb => commandWrite_busy w hb, fun s rest w hi hr hb => ?_⟩
  exact ⟨_, step_commandWrite_busy hr hb hi, rfl⟩

/-- A CMD write while idle whose command passes its operand check latches the word's low byte as the opcode. -/
theorem commandWrite_accept {w : Word} {i : Instr} {s : State} (hb : s.busy = false) (hd : decode w = .command i)
    (hc : operandCheck i s.opa s.opm = none) : commandWrite w s = .next
      { s with lop := w.setWidth 8, la := s.opa, lb := s.opb, lm := s.opm, busy := true, done := false } := by
  rw [commandWrite_command hd, exec_accept i hb hc, ← opcode_of_decode hd, accept]

/-- Settles O6: each branch of R62 and R99 is one case of the CMD write. -/
theorem commandWriteInPriorityOrder : Obligations.CommandWriteInPriorityOrder := by
  intro w s
  by_cases hbusy : s.busy = true
  · rw [if_pos hbusy]
    exact commandWrite_busy w hbusy
  have hidle : s.busy = false := eq_false_of_ne_true hbusy
  rw [if_neg hbusy]
  split_ifs with hillegal hzero hdomain
  · exact commandWrite_refused hidle (.inl ⟨(illegal_iff w).2 hillegal, rfl⟩)
  · obtain ⟨hw, hm⟩ := hzero
    have hcheck : modulusCheck s.opm = some .modulusZero := if_pos hm
    refine commandWrite_refused (e := .modulusZero) hidle (.inr ?_)
    rcases hw with rfl | rfl
    · exact ⟨.mulmod, decode_encode .mulmod, hcheck⟩
    · exact ⟨.powmod, decode_encode .powmod, hcheck⟩
  · obtain ⟨rfl, hout⟩ := hdomain
    exact commandWrite_refused hidle (.inr ⟨.sprp, decode_encode .sprp, sprpCheck_some hout⟩)
  · obtain ⟨i, hd⟩ := (decode_cases w).resolve_right (mt (illegal_iff w).1 hillegal)
    refine commandWrite_accept hidle hd ?_
    obtain rfl := (decode_eq_command_iff w i).1 hd
    cases i with
    | mulmod => exact modulusCheck_none.2 fun hm => hzero ⟨.inl rfl, hm⟩
    | powmod => exact modulusCheck_none.2 fun hm => hzero ⟨.inr rfl, hm⟩
    | sprp => exact sprpCheck_none.2 (not_not.1 fun hout => hdomain ⟨rfl, hout⟩)

/-- Everything a command's CMD write can do, read off its next state. -/
theorem exec_cases {i : Instr} {s t : State} (h : exec i s = .next t) :
    (s.busy = true ∧ t = overrunWrite s) ∨ (s.busy = false ∧ ∃ e, t = complete (.error e) s) ∨
    (s.busy = false ∧ t = accept i s) := by
  obtain rfl := Host.Outcome.next.inj ((exec_eq_issue i s).symm.trans h)
  rcases issue_cases i (operandCheck i s.opa s.opm) s with ⟨hb, ht⟩ | ⟨hb, e, -, ht⟩ | ⟨hb, -, ht⟩
  · exact .inl ⟨hb, ht⟩
  · exact .inr (.inl ⟨hb, e, ht⟩)
  · exact .inr (.inr ⟨hb, ht⟩)

/-- A byte of the window depends on the place it stands in only (R38). -/
theorem windowByte_congr {s t : State} {off : Int}
    (h : ∀ r : Slot, r.offset ≤ off → off < r.offset + 8 → readSlot r t = readSlot r s) :
    windowByte off t = windowByte off s := by
  unfold windowByte
  cases hplace : Slot.ofOffset (8 * (off / 8)) with
  | none => rfl
  | some r =>
    have hoff := offset_of_ofOffset hplace
    exact congrArg (fun v => some (byteOf v (off % 8).toNat)) (h r (by omega) (by omega))

/-- Outside STATUS the window shows the operand registers and RESULT (R40). -/
theorem windowByte_of_operands {s t : State} (ha : t.opa = s.opa) (hb : t.opb = s.opb) (hm : t.opm = s.opm) {off : Int}
    (hstatus : ¬(0x20 ≤ off ∧ off < 0x28)) (hresult : t.result = s.result ∨ ¬(0x28 ≤ off ∧ off < 0x30)) :
    windowByte off t = windowByte off s := by
  refine windowByte_congr fun r hlow hhigh => ?_
  cases r with
  | opa => exact ha
  | opb => exact hb
  | opm => exact hm
  | status => exact absurd ⟨hlow, hhigh⟩ hstatus
  | result => exact hresult.resolve_right (not_not.2 ⟨hlow, hhigh⟩)
  | _ => rfl

theorem exec_keeps_operands_result {i : Instr} {s t : State} (h : exec i s = .next t) :
    t.opa = s.opa ∧ t.opb = s.opb ∧ t.opm = s.opm ∧ t.result = s.result := by
  rcases exec_cases h with ⟨-, rfl⟩ | ⟨-, e, rfl⟩ | ⟨-, rfl⟩ <;> exact ⟨rfl, rfl, rfl, rfl⟩

/-- The events to come, the level of reset and the bus answer are no command's to write. -/
theorem exec_keeps_environment {i : Instr} {s t : State} (h : exec i s = .next t) :
    t.inputs = s.inputs ∧ t.inReset = s.inReset ∧ t.response = s.response := by
  rcases exec_cases h with ⟨-, rfl⟩ | ⟨-, e, rfl⟩ | ⟨-, rfl⟩ <;> exact ⟨rfl, rfl, rfl⟩

theorem exec_keeps_overrun_of_idle {i : Instr} {s t : State} (hb : s.busy = false) (h : exec i s = .next t) :
    t.overrun = s.overrun := by
  rcases exec_cases h with ⟨hbusy, -⟩ | ⟨-, e, rfl⟩ | ⟨-, rfl⟩
  · cases hb.symm.trans hbusy
  · exact complete_error_overrun e s
  · exact accept_overrun i s

/-- A CMD write that leaves the CORE idle is an error completion, which latches nothing. -/
theorem exec_keeps_latches_of_not_accepted {i : Instr} {s t : State} (h : exec i s = .next t) (ht : t.busy = false) :
    t.lop = s.lop ∧ t.la = s.la ∧ t.lb = s.lb ∧ t.lm = s.lm := by
  rcases exec_cases h with ⟨hbusy, rfl⟩ | ⟨-, e, rfl⟩ | ⟨-, rfl⟩
  · cases hbusy.symm.trans ht
  · exact ⟨rfl, rfl, rfl, rfl⟩
  · cases ht

/-- Settles O13: by what a CMD write and the engine's completion keep, and by the places the window's bytes stand in. -/
theorem commandFrame : Obligations.CommandFrame := by
  refine ⟨fun i s t h => ?_, fun s t h => ?_⟩
  · obtain ⟨ha, hb, hm, hres⟩ := exec_keeps_operands_result h
    obtain ⟨hin, hreset, hresp⟩ := exec_keeps_environment h
    refine ⟨ha, hb, hm, hres, hin, hreset, hresp, fun hidle => exec_keeps_overrun_of_idle hidle h, fun hbusy => ?_,
      exec_keeps_latches_of_not_accepted h, fun off hoff => windowByte_of_operands ha hb hm hoff (.inl hres)⟩
    exact Host.Outcome.next.inj (h.symm.trans (exec_busy i hbusy))
  · obtain ⟨i, -, -, rfl⟩ := engineComplete_cases h
    refine ⟨rfl, fun off hoff => ?_⟩
    exact windowByte_of_operands (complete_success_opa _ s) (complete_success_opb _ s) (complete_success_opm _ s)
      (by omega) (.inr (by omega))

end Sys2Proof.Machine

/-! ### The engine under the invariant (R65 to R68, R121) -/

namespace Sys2Proof.Machine

/-- R27's clauses for BUSY = 1, put together: the latches are some command's, in its domain. -/
theorem latched_of_inv {s : State} (hs : s.Inv) (hb : s.busy = true) :
    ∃ i : Instr, s.lop = i.opcode ∧ operandCheck i s.la s.lm = none := by
  obtain ⟨-, hop, hmod, hcand, -⟩ := hs
  rcases hop hb with hl | hl | hl
  · exact ⟨.mulmod, hl, modulusCheck_none.2 (hmod hb)⟩
  · exact ⟨.powmod, hl, modulusCheck_none.2 (hmod hb)⟩
  · exact ⟨.sprp, hl, sprpCheck_none.2 (hcand hb hl)⟩

/-- Settles O14: the latches of a command in flight are some command's in its domain, and its completion is enabled. -/
theorem engineStepNeverFails : Obligations.EngineStepNeverFails := by
  refine fun s => ⟨engineTurn_idle, fun hs hb => ?_⟩
  obtain ⟨i, hl, hc⟩ := latched_of_inv hs hb
  refine ⟨resultOf i s, engineTurn_of_latched hb hl hc, ?_⟩
  cases i with
  | mulmod => exact .inl ⟨hl, rfl⟩
  | powmod => exact .inr (.inl ⟨hl, rfl⟩)
  | sprp => exact .inr (.inr ⟨hl, rfl⟩)

/-- In a state of the invariant the engine's turn always answers an idle state. -/
theorem engineTurn_next_of_inv {s : State} (hs : s.Inv) : ∃ t, engineTurn s = .next t ∧ t.busy = false := by
  cases hb : s.busy with
  | false => exact ⟨s, engineTurn_idle hb, hb⟩
  | true =>
    obtain ⟨i, hl, hc⟩ := latched_of_inv hs hb
    exact ⟨_, engineTurn_of_latched hb hl hc, rfl⟩

/-- Of the events of a state of the invariant only a host access during reset has no next state. -/
theorem step_next_of_inv {s : State} (hs : s.Inv)
    (hadm : ¬(s.inReset = true ∧ ∃ a rest, s.inputs = .host a :: rest)) : ∃ t, step s = .next t := by
  cases hi : s.inputs with
  | nil =>
    obtain ⟨t, ht, -⟩ := engineTurn_next_of_inv hs
    exact ⟨t, (step_nil hi).trans ht⟩
  | cons e rest =>
    cases e with
    | host a =>
      have hr : s.inReset = false := eq_false_of_ne_true fun hr => hadm ⟨hr, a, rest, hi⟩
      exact step_next_of_hostOrWork hi rfl hr
    | engineWork => exact ⟨_, step_engineWork hi⟩
    | engineComplete =>
      obtain ⟨t, ht, -⟩ := engineTurn_next_of_inv (s := { s with inputs := rest }) hs
      exact ⟨t, (step_engineComplete hi).trans ht⟩
    | resetAssert => exact ⟨_, step_resetAssert hi⟩
    | resetRelease => exact ⟨_, step_resetRelease hi⟩

/-- Settles O18: a host access during reset is the one fault, and from every other state there is a next one. -/
theorem onlyAnAccessDuringResetStops : Obligations.OnlyAnAccessDuringResetStops := by
  intro s hs
  by_cases hstop : s.inReset = true ∧ ∃ a rest, s.inputs = .host a :: rest
  · obtain ⟨hr, a, rest, hi⟩ := hstop
    rw [step_host_inReset hi hr]
    refine ⟨fun r h => (nomatch h), fun f => ⟨fun h => ?_, fun ⟨hf, _⟩ => hf ▸ rfl⟩⟩
    cases h
    exact ⟨rfl, hr, a, rest, hi⟩
  · obtain ⟨t, ht⟩ := step_next_of_inv hs hstop
    rw [ht]
    exact ⟨fun r h => (nomatch h), fun f => ⟨fun h => (nomatch h), fun ⟨_, hf⟩ => absurd hf hstop⟩⟩

/-- Settles O32: each run completes undisturbed with the value of its own operands, and the two agree on those the command
reads. -/
theorem resultDependsOnlyOnOperands : Obligations.ResultDependsOnlyOnOperands := by
  intro i s₁ s₂ t₁ t₂ u₁ u₂ between₁ between₂ rest₁ rest₂ ha hm hb hidle₁ hidle₂ hr₁ hr₂ hexec₁ hexec₂ hbusy₁
    hall₁ hall₂ hrun₁ hrun₂
  have hbusy₂ : t₂.busy = true := by
    obtain ⟨hc, -⟩ := exec_accepted hidle₁ hexec₁ hbusy₁
    rw [ha, hm] at hc
    obtain rfl := Host.Outcome.next.inj ((exec_accept i hidle₂ hc).symm.trans hexec₂)
    exact accept_busy i s₂
  obtain ⟨v₁, hv₁, -, hdone₁, hcause₁, -, hres₁⟩ :=
    commandInFlightIsUndisturbed i s₁ t₁ hidle₁ hr₁ hexec₁ hbusy₁ between₁ rest₁ hall₁
  obtain ⟨v₂, hv₂, -, hdone₂, hcause₂, -, hres₂⟩ :=
    commandInFlightIsUndisturbed i s₂ t₂ hidle₂ hr₂ hexec₂ hbusy₂ between₂ rest₂ hall₂
  obtain rfl := Host.Outcome.next.inj (hrun₁.symm.trans hv₁)
  obtain rfl := Host.Outcome.next.inj (hrun₂.symm.trans hv₂)
  refine ⟨hbusy₂, ?_, hcause₁.trans hcause₂.symm, hdone₁, hdone₂⟩
  rw [hres₁, hres₂, ha, hm]
  cases i with
  | mulmod => rw [hb.resolve_left (by decide)]
  | powmod => rw [hb.resolve_left (by decide)]
  | sprp => rfl

/-- The CORE becomes busy by an accept only, which needs reset released, and reset itself leaves it idle (R111). -/
theorem step_keeps_resetIsIdle {s t : State} (hs : s.ResetIsIdle) (h : step s = .next t) : t.ResetIsIdle := by
  cases step_cases h with
  | completion => exact fun _ => rfl
  | resetAssert => exact fun _ => rfl
  | commandError => exact fun _ => rfl
  | resetRelease => exact fun hr => by cases hr
  | accept _ _ _ _ hr => exact fun hr' => by cases hr.symm.trans hr'
  | _ => exact hs

/-- A command in flight ends at the latest at the step after the last event, since each step takes one event and the engine
completes when none is left (entry 3). -/
theorem command_in_flight_ends (events : List Input) : ∀ s : State, s.inputs = events → s.Inv → s.ResetIsIdle →
    s.busy = true → ∃ k t, k ≤ events.length + 1 ∧ runN k s = .next t ∧ t.busy = false := by
  induction events with
  | nil =>
    intro s hi hs _ _
    obtain ⟨t, ht, hidle⟩ := engineTurn_next_of_inv hs
    exact ⟨1, t, le_rfl, runN_succ_of_step ((step_nil hi).trans ht) 0, hidle⟩
  | cons e rest ih =>
    intro s hi hs hreset hb
    obtain ⟨t, ht⟩ := step_next_of_inv hs fun ⟨hr, _⟩ => by cases hb.symm.trans (hreset hr)
    cases htb : t.busy with
    | false => exact ⟨1, t, Nat.le_add_left 1 _, runN_succ_of_step ht 0, htb⟩
    | true =>
      have hti : t.inputs = rest := by rw [step_inputs ht, hi, List.tail_cons]
      obtain ⟨k, u, hk, hrun, hub⟩ := ih t hti (step_keeps_inv hs ht) (step_keeps_resetIsIdle hreset ht) htb
      exact ⟨k + 1, u, Nat.succ_le_succ hk, (runN_succ_of_step ht k).trans hrun, hub⟩

/-- Settles O33: by induction on the events that wait. -/
theorem everyCommandInFlightEnds : Obligations.EveryCommandInFlightEnds :=
  fun s => command_in_flight_ends s.inputs s rfl

end Sys2Proof.Machine

/-! ### The laws of mulmod and powmod (R72, R73, R76, R77) -/

namespace Sys2Proof.Machine

theorem word_one_toNat : (1 : Word).toNat = 1 := rfl

theorem mulmod_lt {m : Word} (hm : m ≠ 0) (a b : Word) : (mulmod a b m).toNat < m.toNat := by
  rw [mulmod_toNat a b m hm]
  exact Nat.mod_lt _ (BitVec.toNat_pos_of_ne_zero hm)

theorem mulmod_comm {m : Word} (hm : m ≠ 0) (a b : Word) : mulmod a b m = mulmod b a m := by
  apply BitVec.eq_of_toNat_eq
  rw [mulmod_toNat a b m hm, mulmod_toNat b a m hm, Nat.mul_comm]

theorem mulmod_mod {m : Word} (hm : m ≠ 0) (a b : Word) : mulmod (a % m) (b % m) m = mulmod a b m := by
  apply BitVec.eq_of_toNat_eq
  rw [mulmod_toNat _ _ m hm, mulmod_toNat a b m hm, BitVec.toNat_umod, BitVec.toNat_umod, ← Nat.mul_mod]

theorem mulmod_one {m : Word} (hm : m ≠ 0) (a : Word) : mulmod a 1 m = a % m := by
  apply BitVec.eq_of_toNat_eq
  rw [mulmod_toNat a 1 m hm, BitVec.toNat_umod, word_one_toNat, Nat.mul_one]

/-- Settles O41: each law is one of natural numbers, since mulmod is the exact product reduced. -/
theorem mulmodIsExact : Obligations.MulmodIsExact := by
  intro a b m hm
  have hlt := mulmod_lt hm a b
  have hle : (mulmod a b m).toNat ≤ 2 ^ 64 - 2 := by omega
  exact ⟨hlt, hle, mulmod_toNat a b m hm, mulmod_comm hm a b, (mulmod_mod hm a b).symm⟩

/-- Exponent 0 leaves the accumulator at 1, whatever the modulus (R76). -/
theorem powmod_zero (a m : Word) : powmod a 0 m = 1 := powLoop_zero m 64 1 a

/-- `powmod` for every exponent: at 0 it is 1, which for m = 1 is not reduced (entry 9). -/
theorem powmod_toNat_eq_ite {m : Word} (hm : m ≠ 0) (a p : Word) :
    (powmod a p m).toNat = if p = 0 then 1 else a.toNat ^ p.toNat % m.toNat := by
  split_ifs with hp
  · rw [hp, powmod_zero]
    rfl
  · exact powmod_toNat a p m hm hp

theorem powmod_lt {p m : Word} (hm : m ≠ 0) (hp : p ≠ 0) (a : Word) : (powmod a p m).toNat < m.toNat := by
  rw [powmod_toNat a p m hm hp]
  exact Nat.mod_lt _ (BitVec.toNat_pos_of_ne_zero hm)

theorem powmod_mod {m : Word} (hm : m ≠ 0) (a p : Word) : powmod (a % m) p m = powmod a p m := by
  apply BitVec.eq_of_toNat_eq
  rw [powmod_toNat_eq_ite hm, powmod_toNat_eq_ite hm, BitVec.toNat_umod, ← Nat.pow_mod]

theorem powmod_one {m : Word} (hm : m ≠ 0) (a : Word) : powmod a 1 m = a % m := by
  apply BitVec.eq_of_toNat_eq
  rw [powmod_toNat a 1 m hm (by decide), BitVec.toNat_umod, word_one_toNat, Nat.pow_one]

theorem powmod_two {m : Word} (hm : m ≠ 0) (a : Word) : powmod a 2 m = mulmod a a m := by
  have htwo : (2 : Word).toNat = 2 := rfl
  apply BitVec.eq_of_toNat_eq
  rw [powmod_toNat a 2 m hm (by decide), mulmod_toNat a a m hm, htwo, Nat.pow_two]

/-- Settles O44: the laws of `powmod`, and POWMOD's completion on a modulus that passes its operand check. -/
theorem powmodIsThePower : Obligations.PowmodIsThePower := by
  refine ⟨fun a p m hm => ?_, fun s hb hl hm => ?_⟩
  · exact ⟨fun hp => ⟨powmod_toNat a p m hm hp, powmod_lt hm hp a⟩, fun hp => hp ▸ powmod_zero a m,
      (powmod_mod hm a p).symm, powmod_one hm a, powmod_two hm a⟩
  · exact ⟨_, engineTurn_of_latched (i := .powmod) hb hl (modulusCheck_none.2 hm), rfl⟩

/-- Settles O43: exponent 0 never enters the loop; an odd `d` is not 0. -/
theorem powmodOfExponentZeroIsOne : Obligations.PowmodOfExponentZeroIsOne := by
  refine ⟨fun a m _ => powmod_zero a m, fun n _ hn => ?_⟩
  obtain ⟨hodd, -⟩ := decompose_spec n (by omega)
  omega

/-! ### MULMOD and POWMOD from CMD write to completion (R71, R73, R75) -/

/-- A command just accepted completes at the engine's next turn. -/
theorem engineTurn_accept {i : Instr} {s : State} (hc : operandCheck i s.opa s.opm = none) :
    engineTurn (accept i s) = .next (complete (.success (resultOf i (accept i s))) (accept i s)) :=
  engineTurn_of_latched (accept_busy i s) (accept_lop i s) hc

theorem modulusCheck_some {m : Word} (hm : m = 0) : modulusCheck m = some .modulusZero := if_pos hm

/-- Settles O8: by MULMOD's word, and its overrun, its error completion and its accept with the completion. -/
theorem mulmodComputesTheProduct : Obligations.MulmodComputesTheProduct := by
  refine ⟨fun w => decode_eq_command_iff w .mulmod, fun s => ⟨fun hb => ?_, fun hb hm => ?_, fun hb hm => ?_⟩⟩
  · exact exec_busy .mulmod hb
  · exact exec_error .mulmod hb (modulusCheck_some hm)
  · have hc : operandCheck .mulmod s.opa s.opm = none := modulusCheck_none.2 hm
    exact ⟨accept .mulmod s, mulmod s.opa s.opb s.opm, exec_accept .mulmod hb hc, rfl, engineTurn_accept hc,
      mulmod_toNat s.opa s.opb s.opm hm⟩

/-- Settles O9: by POWMOD's word, and its overrun, its error completion and its accept with the completion. -/
theorem powmodComputesThePower : Obligations.PowmodComputesThePower := by
  refine ⟨fun w => decode_eq_command_iff w .powmod, fun s => ⟨fun hb => ?_, fun hb hm => ?_, fun hb hm => ?_⟩⟩
  · exact exec_busy .powmod hb
  · exact exec_error .powmod hb (modulusCheck_some hm)
  · have hc : operandCheck .powmod s.opa s.opm = none := modulusCheck_none.2 hm
    exact ⟨accept .powmod s, powmod s.opa s.opb s.opm, exec_accept .powmod hb hc, rfl, engineTurn_accept hc,
      powmod_toNat_eq_ite hm s.opa s.opb⟩

/-- Settles O42: the law of `mulmod`, and MULMOD's accept and completion with that value. -/
theorem mulmodByOneReduces : Obligations.MulmodByOneReduces := by
  refine ⟨fun a m hm => mulmod_one hm a, fun s hb hm hone => ?_⟩
  have hc : operandCheck .mulmod s.opa s.opm = none := modulusCheck_none.2 hm
  refine ⟨_, _, exec_accept .mulmod hb hc, engineTurn_accept hc, rfl, ?_⟩
  have hvalue : resultOf .mulmod (accept .mulmod s) = s.opa % s.opm := by
    rw [← mulmod_one hm, ← hone]
    rfl
  rw [complete_success_result, hvalue, BitVec.toNat_umod]

/-! ### POWMOD's work (R78) -/

theorem bitLength_zero : bitLength 0 = 0 := rfl

theorem popCount_zero : popCount 0 = 0 := by decide

/-- Each iteration squares once and multiplies once more when the exponent's low bit is 1, so the count grows by the
exponent's bits and by those of them that are 1. -/
theorem powLoopCounted_snd (m : Word) (fuel : Nat) : ∀ (y base e : Word) (c : Nat), e.toNat < 2 ^ fuel →
    (powLoopCounted m fuel y base e c).2 = c + bitLength e + popCount e := by
  induction fuel with
  | zero =>
    intro y base e c he
    rw [eq_zero_of_toNat_lt_one he, bitLength_zero, popCount_zero]
    rfl
  | succ fuel ih =>
    intro y base e c he
    rw [powLoopCounted]
    by_cases hzero : e = 0
    · rw [if_pos hzero, hzero, bitLength_zero, popCount_zero]
      rfl
    · have hsplit := exponent_split e
      have hlt : (e >>> 1).toNat < 2 ^ fuel := by
        rw [Nat.pow_succ] at he
        omega
      rw [if_neg hzero, ih _ _ _ _ hlt, bitLength_shift e hzero, popCount_shift e]
      omega

theorem bitLength_le (p : Word) : bitLength p ≤ 64 := by
  by_cases hp : p = 0
  · rw [hp, bitLength_zero]
    exact Nat.zero_le 64
  · obtain ⟨hlow, -⟩ := bitLength_bounds p hp
    have hexp : bitLength p - 1 < 64 := (Nat.pow_lt_pow_iff_right (by decide)).1 (hlow.trans_lt p.isLt)
    omega

theorem popCount_le (p : Word) : popCount p ≤ 64 := List.countP_le_length

theorem powmodCounted_snd (a p m : Word) : (powmodCounted a p m).2 = bitLength p + popCount p := by
  rw [powmodCounted, powLoopCounted_snd m 64 1 a p 0 p.isLt, Nat.zero_add]

/-- Settles O50: the counter changes no value, and counts the exponent's bits and its bits that are 1. -/
theorem powmodWork : Obligations.PowmodWork := by
  intro a p m
  have hlength := bitLength_le p
  have hones := popCount_le p
  refine ⟨powLoopCounted_fst m 64 1 a p 0, powmodCounted_snd a p m, hlength, ?_, ?_, bitLength_bounds p⟩
  · rw [powmodCounted_snd]
    omega
  · rintro rfl
    rw [powmodCounted_snd, bitLength_zero, popCount_zero]

end Sys2Proof.Machine

/-! ### The decomposition of a candidate (R80) -/

namespace Sys2Proof.Machine

theorem word_zero_toNat : (0 : Word).toNat = 0 := rfl

theorem pred_toNat {n : Word} (hn : 1 < n.toNat) : (n - 1).toNat = n.toNat - 1 := by
  rw [BitVec.toNat_sub_of_le (BitVec.le_def.2 (by rw [word_one_toNat]; omega)), word_one_toNat]

/-- An odd factor and a power of two whose product is n - 1 are the model's decomposition. -/
theorem eq_decompose {n : Word} (hn : 1 < n.toNat) {d k : Nat} (hd : d % 2 = 1) (h : d * 2 ^ k = n.toNat - 1) :
    d = (decompose n).1.toNat ∧ k = (decompose n).2 := by
  obtain ⟨hodd, hprod⟩ := decompose_spec n hn
  exact odd_times_pow_two_unique hd hodd (h.trans hprod.symm)

/-- n - 1 is even, so it leaves at least one factor 2. -/
theorem decompose_snd_pos {n : Word} (hodd : n.toNat % 2 = 1) (hn : 1 < n.toNat) : 1 ≤ (decompose n).2 := by
  obtain ⟨hd, hprod⟩ := decompose_spec n hn
  by_contra hs
  rw [Nat.lt_one_iff.1 (not_le.1 hs), Nat.pow_zero, Nat.mul_one] at hprod
  omega

theorem decompose_snd_le {n : Word} (hn : 1 < n.toNat) : (decompose n).2 ≤ 63 := by
  obtain ⟨hd, hprod⟩ := decompose_spec n hn
  have hpow : 2 ^ (decompose n).2 < 2 ^ 64 := by
    have := Nat.le_mul_of_pos_left (2 ^ (decompose n).2) (show 0 < (decompose n).1.toNat by omega)
    have := n.isLt
    omega
  exact Nat.le_of_lt_succ ((Nat.pow_lt_pow_iff_right (by decide)).1 hpow)

/-- At most half of n - 1 is left. -/
theorem decompose_fst_le {n : Word} (hodd : n.toNat % 2 = 1) (hn : 1 < n.toNat) :
    (decompose n).1.toNat ≤ 2 ^ 63 - 1 := by
  obtain ⟨-, hprod⟩ := decompose_spec n hn
  have htwo : 2 ^ 1 ≤ 2 ^ (decompose n).2 := Nat.pow_le_pow_right (by decide) (decompose_snd_pos hodd hn)
  have := Nat.mul_le_mul_left (decompose n).1.toNat htwo
  have := n.isLt
  omega

/-- With 63 factors 2 below 2^64 the odd factor is 1. -/
theorem decompose_snd_eq_63_iff {n : Word} (hn : 1 < n.toNat) : (decompose n).2 = 63 ↔ n.toNat = 2 ^ 63 + 1 := by
  constructor
  · intro hs
    obtain ⟨hd, hprod⟩ := decompose_spec n hn
    rw [hs] at hprod
    have := n.isLt
    omega
  · intro h
    exact (eq_decompose hn (d := 1) (k := 63) rfl (by omega)).2.symm

/-- Settles O45: `d` odd with `d * 2^s = n - 1`, and the bounds that follow from 1 < n < 2^64 with n odd. -/
theorem decompositionOfCandidate : Obligations.DecompositionOfCandidate := by
  intro n hodd hbig
  have hn : 1 < n.toNat := by omega
  obtain ⟨hd, hprod⟩ := decompose_spec n hn
  exact ⟨hprod, hd, by omega, decompose_fst_le hodd hn, decompose_snd_pos hodd hn, decompose_snd_le hn,
    decompose_snd_eq_63_iff hn⟩

/-! ### The verdict of the strong test (R81, R84 to R87) -/

theorem ne_zero_of_one_lt {n : Word} (hn : 1 < n.toNat) : n ≠ 0 := by
  rintro rfl
  cases hn

/-- The exponent of the first check is odd, so the power of R76 with exponent 0 is not taken. -/
theorem decompose_fst_ne_zero {n : Word} (hn : 1 < n.toNat) : (decompose n).1 ≠ 0 := by
  obtain ⟨hd, -⟩ := decompose_spec n hn
  intro h
  rw [h] at hd
  cases hd

/-- What the first check looks at (R85). -/
theorem powmod_decompose_toNat {n : Word} (hn : 1 < n.toNat) (a : Word) :
    (powmod a (decompose n).1 n).toNat = a.toNat ^ (decompose n).1.toNat % n.toNat :=
  powmod_toNat a _ n (ne_zero_of_one_lt hn) (decompose_fst_ne_zero hn)

theorem sprp_zero (n : Word) : sprp n 0 = true := if_pos rfl

/-- The test behind the guard (R85, R86). -/
theorem sprp_of_ne_zero (n : Word) {a : Word} (ha : a ≠ 0) : sprp n a =
    if powmod a (decompose n).1 n = 1 then true
    else squareLoop n (decompose n).2 (powmod a (decompose n).1 n) :=
  if_neg ha

/-- The three ways to pass, in the test's order (R84 to R86). -/
theorem sprp_iff (n a : Word) : sprp n a = true ↔
    a = 0 ∨ powmod a (decompose n).1 n = 1 ∨ squareLoop n (decompose n).2 (powmod a (decompose n).1 n) = true := by
  by_cases ha : a = 0
  · simp only [ha, sprp_zero, true_or]
  · rw [sprp_of_ne_zero n ha, Bool.if_true_left, Bool.or_eq_true, decide_eq_true_iff, or_iff_right ha]

/-- On round r the loop looks at `a^(d * 2^r)` (R86). -/
theorem squareLoop_powmod_iff {n : Word} (hn : 1 < n.toNat) (a : Word) (rounds : Nat) :
    squareLoop n rounds (powmod a (decompose n).1 n) = true ↔
      ∃ r < rounds, a.toNat ^ ((decompose n).1.toNat * 2 ^ r) % n.toNat = n.toNat - 1 := by
  rw [squareLoop_iff n hn rounds _ (powmod_lt (ne_zero_of_one_lt hn) (decompose_fst_ne_zero hn) a)]
  simp only [powmod_decompose_toNat hn, ← Nat.pow_mod, ← Nat.pow_mul]

/-- The verdict as a condition on powers of the witness (R84 to R87). -/
theorem sprp_iff_rounds {n : Word} (hn : 1 < n.toNat) (a : Word) : sprp n a = true ↔
    a = 0 ∨ a.toNat ^ (decompose n).1.toNat % n.toNat = 1 ∨
      ∃ r < (decompose n).2, a.toNat ^ ((decompose n).1.toNat * 2 ^ r) % n.toNat = n.toNat - 1 := by
  rw [sprp_iff, squareLoop_powmod_iff hn, ← BitVec.toNat_inj (x := powmod _ _ _), powmod_decompose_toNat hn,
    word_one_toNat]

/-- Settles O47: the loop's rounds are the powers `a^(d * 2^r)`. -/
theorem verdictIsTheRoundCondition : Obligations.VerdictIsTheRoundCondition :=
  fun _ a _ hbig _ => sprp_iff_rounds (by omega) a

/-- The power of 0 is 0, since `d` is not 0. -/
theorem powmod_decompose_zero {n : Word} (hn : 1 < n.toNat) : powmod 0 (decompose n).1 n = 0 := by
  apply BitVec.eq_of_toNat_eq
  rw [powmod_decompose_toNat hn, word_zero_toNat,
    Nat.zero_pow (BitVec.toNat_pos_of_ne_zero (decompose_fst_ne_zero hn)), Nat.zero_mod]

/-- Squaring 0 gives 0, which is not n - 1. -/
theorem squareLoop_zero {n : Word} (hn : 1 < n.toNat) (rounds : Nat) : squareLoop n rounds 0 = false := by
  have hlt : (0 : Word).toNat < n.toNat := by
    rw [word_zero_toNat]
    omega
  rw [← Bool.not_eq_true, squareLoop_iff n hn rounds 0 hlt]
  rintro ⟨r, -, h⟩
  rw [word_zero_toNat, Nat.zero_pow (Nat.two_pow_pos r), Nat.zero_mod] at h
  omega

/-- Settles O46: by the guard, and by what the power and the loop do at 0. -/
theorem zeroWitnessPasses : Obligations.ZeroWitnessPasses := by
  intro n _ hbig
  have hn : 1 < n.toNat := by omega
  exact ⟨sprp_zero n, powmod_decompose_zero hn, squareLoop_zero hn _⟩

/-! ### SPRP from CMD write to completion (R82) -/

theorem verdictWord_eq_zero_or_one (pass : Bool) : verdictWord pass = 0 ∨ verdictWord pass = 1 := by
  cases pass with
  | false => exact .inl rfl
  | true => exact .inr rfl

theorem verdictWord_eq_one_iff (pass : Bool) : verdictWord pass = 1 ↔ pass = true := by
  cases pass <;> decide

/-- Settles O10: by SPRP's word, its overrun, its error completion, and its accept with the completion; the verdict's
`d` and `k` are the model's decomposition. -/
theorem sprpDecidesTheStrongTest : Obligations.SprpDecidesTheStrongTest := by
  refine ⟨fun w => decode_eq_command_iff w .sprp, fun s => ⟨fun hb => ?_, fun hb hout => ?_, fun hb hodd hbig hlt => ?_⟩⟩
  · exact exec_busy .sprp hb
  · exact exec_error .sprp hb (sprpCheck_some (by omega))
  · have hc : operandCheck .sprp s.opa s.opm = none := sprpCheck_none.2 ⟨hodd, hbig, hlt⟩
    have hn : 1 < s.opm.toNat := by omega
    refine ⟨accept .sprp s, verdictWord (sprp s.opm s.opa), exec_accept .sprp hb hc, rfl, engineTurn_accept hc,
      verdictWord_eq_zero_or_one _, fun d k hd hprod => ?_⟩
    obtain ⟨rfl, rfl⟩ := eq_decompose hn hd hprod
    rw [verdictWord_eq_one_iff, sprp_iff_rounds hn]

/-! ### The verdict modulo n: corner cases and primes (R88, R89) -/

theorem zmod_natCast_eq_one_iff {n : Nat} (hn : 1 < n) (x : Nat) : (x : ZMod n) = 1 ↔ x % n = 1 := by
  rw [← Nat.cast_one, ZMod.natCast_eq_natCast_iff', Nat.mod_eq_of_lt hn]

theorem zmod_natCast_pred {n : Nat} (hn : 1 < n) : ((n - 1 : Nat) : ZMod n) = -1 := by
  rw [Nat.cast_pred (by omega), ZMod.natCast_self, zero_sub]

theorem zmod_natCast_eq_neg_one_iff {n : Nat} (hn : 1 < n) (x : Nat) : (x : ZMod n) = -1 ↔ x % n = n - 1 := by
  rw [← zmod_natCast_pred hn, ZMod.natCast_eq_natCast_iff', Nat.mod_eq_of_lt (Nat.sub_lt (by omega) Nat.one_pos)]

/-- The verdict in the ring of residues modulo n: R89's `a^d = 1` or `a^(d * 2^r) = -1`. -/
theorem sprp_iff_zmod {n : Word} (hn : 1 < n.toNat) (a : Word) : sprp n a = true ↔
    a = 0 ∨ (a.toNat : ZMod n.toNat) ^ (decompose n).1.toNat = 1 ∨
      ∃ r < (decompose n).2, (a.toNat : ZMod n.toNat) ^ ((decompose n).1.toNat * 2 ^ r) = -1 := by
  simp only [sprp_iff_rounds hn, ← Nat.cast_pow, zmod_natCast_eq_one_iff hn, zmod_natCast_eq_neg_one_iff hn]

/-- A power that is -1 at round 0 passes, since there is a round (R88). -/
theorem sprp_of_pow_eq_neg_one {n a : Word} (hodd : n.toNat % 2 = 1) (hn : 1 < n.toNat)
    (h : (a.toNat : ZMod n.toNat) ^ (decompose n).1.toNat = -1) : sprp n a = true :=
  (sprp_iff_zmod hn a).2 (.inr (.inr ⟨0, decompose_snd_pos hodd hn, by rwa [Nat.pow_zero, Nat.mul_one]⟩))

theorem sprp_one {n : Word} (hn : 1 < n.toNat) : sprp n 1 = true :=
  (sprp_iff_zmod hn 1).2 (.inr (.inl (by rw [word_one_toNat, Nat.cast_one, one_pow])))

/-- The witness n - 1 is -1, and `d` is odd (R88). -/
theorem sprp_pred {n : Word} (hodd : n.toNat % 2 = 1) (hn : 1 < n.toNat) : sprp n (n - 1) = true := by
  obtain ⟨hd, -⟩ := decompose_spec n hn
  refine sprp_of_pow_eq_neg_one hodd hn ?_
  rw [pred_toNat hn, zmod_natCast_pred hn, (Nat.odd_iff.2 hd).neg_one_pow]

/-- Once 1, the power stays 1 and is never -1; so only a round before could have passed (R88). -/
theorem sprp_fails_of_one_without_neg_one {n a : Word} {j : Nat} (hn : 2 < n.toNat) (ha : a ≠ 0)
    (hfirst : (a.toNat : ZMod n.toNat) ^ (decompose n).1.toNat ≠ 1)
    (hone : (a.toNat : ZMod n.toNat) ^ ((decompose n).1.toNat * 2 ^ j) = 1)
    (hbefore : ∀ r < j, (a.toNat : ZMod n.toNat) ^ ((decompose n).1.toNat * 2 ^ r) ≠ -1) : sprp n a = false := by
  have : Fact (2 < n.toNat) := ⟨hn⟩
  rw [← Bool.not_eq_true, sprp_iff_zmod (by omega)]
  rintro (h | h | ⟨r, -, h⟩)
  · exact ha h
  · exact hfirst h
  · rcases lt_or_ge r j with hr | hr
    · exact hbefore r hr h
    · obtain ⟨i, rfl⟩ := Nat.exists_eq_add_of_le hr
      rw [Nat.pow_add, ← Nat.mul_assoc, pow_mul, hone, one_pow] at h
      exact ZMod.neg_one_ne_one h.symm

/-- Settles O48: in the residues modulo n, by the powers of 1 and of -1. -/
theorem witnessCornerCases : Obligations.WitnessCornerCases := by
  intro n hodd hbig
  have hn : 1 < n.toNat := by omega
  refine ⟨sprp_one hn, sprp_pred hodd hn, fun a _ h => ?_, fun a j ha _ _ _ hfirst hone hbefore => ?_⟩
  · refine sprp_of_pow_eq_neg_one hodd hn ?_
    rw [← Nat.cast_pow, zmod_natCast_eq_neg_one_iff hn, ← powmod_decompose_toNat hn, h, pred_toNat hn]
  · refine sprp_fails_of_one_without_neg_one (j := j) (by omega) ha ?_ ?_ fun r hr => ?_
    · rwa [← Nat.cast_pow, Ne, zmod_natCast_eq_one_iff hn, ← powmod_decompose_toNat hn, ← word_one_toNat,
        BitVec.toNat_inj]
    · rwa [← Nat.cast_pow, zmod_natCast_eq_one_iff hn]
    · rw [← Nat.cast_pow, Ne, zmod_natCast_eq_neg_one_iff hn]
      exact hbefore r hr

/-- Where 1 has no square roots but 1 and -1, squaring reaches 1 from 1 or through -1. -/
theorem eq_one_or_pow_two_pow_eq_neg_one {R : Type*} [Ring R] [NoZeroDivisors R] {x : R} {s : Nat}
    (h : x ^ 2 ^ s = 1) : x = 1 ∨ ∃ r < s, x ^ 2 ^ r = -1 := by
  induction s with
  | zero => exact .inl (by rwa [Nat.pow_zero, pow_one] at h)
  | succ s ih =>
    rw [Nat.pow_succ, pow_mul, sq_eq_one_iff] at h
    rcases h with h | h
    · exact (ih h).imp_right fun ⟨r, hr, hx⟩ => ⟨r, Nat.lt_succ_of_lt hr, hx⟩
    · exact .inr ⟨s, Nat.lt_succ_self s, h⟩

/-- Fermat's little theorem gives `a^(d * 2^s) = a^(n-1) = 1`, and a prime modulus has no other square roots of 1
(R89). -/
theorem sprp_of_prime {n a : Word} (hp : Nat.Prime n.toNat) (ha : a.toNat < n.toNat) : sprp n a = true := by
  have : Fact (Nat.Prime n.toNat) := ⟨hp⟩
  have hn : 1 < n.toNat := hp.one_lt
  obtain ⟨-, hprod⟩ := decompose_spec n hn
  rw [sprp_iff_zmod hn, or_iff_not_imp_left]
  intro hzero
  have hunit : (a.toNat : ZMod n.toNat) ≠ 0 := by
    rw [Ne, ZMod.natCast_eq_zero_iff]
    exact Nat.not_dvd_of_pos_of_lt (BitVec.toNat_pos_of_ne_zero hzero) ha
  have hfermat : ((a.toNat : ZMod n.toNat) ^ (decompose n).1.toNat) ^ 2 ^ (decompose n).2 = 1 := by
    rw [← pow_mul, hprod, ZMod.pow_card_sub_one_eq_one hunit]
  simpa only [← pow_mul] using eq_one_or_pow_two_pow_eq_neg_one hfermat

/-- Settles O49: a prime candidate passes; the composite 2047 and its witness 2 by evaluation. -/
theorem primeCandidatePasses : Obligations.PrimeCandidatePasses := by
  refine ⟨fun n a _ _ ha => ⟨fun hp => sprp_of_prime hp ha, fun hfail hp => ?_⟩, by decide +kernel, by norm_num⟩
  cases hfail.symm.trans (sprp_of_prime hp ha)

/-! ### SPRP's work (R90) -/

/-- Shifting right takes away as many bits, as long as one is left. -/
theorem bitLength_shiftRight (v : Word) (k : Nat) (h : v >>> k ≠ 0) : bitLength (v >>> k) + k = bitLength v := by
  induction k with
  | zero => rw [BitVec.ushiftRight_zero, Nat.add_zero]
  | succ k ih =>
    rw [BitVec.shiftRight_add] at h ⊢
    have hk : v >>> k ≠ 0 := fun h0 => h (by rw [h0]; rfl)
    rw [← ih hk, bitLength_shift (v >>> k) hk]
    omega

theorem bitLength_decompose {n : Word} (hn : 1 < n.toNat) :
    bitLength (decompose n).1 + (decompose n).2 = bitLength (n - 1) :=
  bitLength_shiftRight (n - 1) (ctz (n - 1)) (decompose_fst_ne_zero hn)

/-- A value has at most as many bits that are 1 as it has bits. -/
theorem popCount_le_bitLength (fuel : Nat) : ∀ e : Word, e.toNat < 2 ^ fuel → popCount e ≤ bitLength e := by
  induction fuel with
  | zero => intro e he; rw [eq_zero_of_toNat_lt_one he, popCount_zero, bitLength_zero]
  | succ fuel ih =>
    intro e he
    by_cases hzero : e = 0
    · rw [hzero, popCount_zero, bitLength_zero]
    · have hsplit := exponent_split e
      have := ih (e >>> 1) (by rw [Nat.pow_succ] at he; omega)
      rw [popCount_shift, bitLength_shift e hzero]
      split <;> omega

theorem powmodCounted_fst (a p m : Word) : (powmodCounted a p m).1 = powmod a p m :=
  powLoopCounted_fst m 64 1 a p 0

theorem sprpCounted_zero (n : Word) : sprpCounted n 0 = (true, 0) := if_pos rfl

/-- The counted test behind the guard. -/
theorem sprpCounted_of_ne_zero (n : Word) {a : Word} (ha : a ≠ 0) : sprpCounted n a =
    if powmod a (decompose n).1 n = 1 then (true, (powmodCounted a (decompose n).1 n).2)
    else squareLoopCounted n (decompose n).2 (powmod a (decompose n).1 n) (powmodCounted a (decompose n).1 n).2 := by
  rw [← powmodCounted_fst]
  exact if_neg ha

theorem sprpCounted_fst (n a : Word) : (sprpCounted n a).1 = sprp n a := by
  by_cases ha : a = 0
  · rw [ha, sprpCounted_zero, sprp_zero]
  · rw [sprpCounted_of_ne_zero n ha, sprp_of_ne_zero n ha]
    split
    · rfl
    · exact squareLoopCounted_fst n _ _ _

/-- The power's squarings and multiplications, and at most one squaring a round. -/
theorem sprpCounted_snd_le (n a : Word) : (sprpCounted n a).2 ≤
    bitLength (decompose n).1 + popCount (decompose n).1 + (decompose n).2 := by
  by_cases ha : a = 0
  · rw [ha, sprpCounted_zero]
    exact Nat.zero_le _
  · rw [sprpCounted_of_ne_zero n ha, powmodCounted_snd]
    split
    · exact Nat.le_add_right _ _
    · exact squareLoopCounted_snd_le n _ _ _

/-- Settles O51: the power takes `bitlen(d) + popcount(d)` mulmods and the loop at most `s`, and `d` has at least one
bit less than n - 1. -/
theorem sprpWork : Obligations.SprpWork := by
  intro n a hodd hbig _
  have hn : 1 < n.toNat := by omega
  have hbits := bitLength_decompose hn
  have hlength := bitLength_le (n - 1)
  have hcount := sprpCounted_snd_le n a
  have hrounds := decompose_snd_pos hodd hn
  have hones := popCount_le_bitLength 64 (decompose n).1 (decompose n).1.isLt
  refine ⟨sprpCounted_fst n a, hbits, hlength, by omega, by omega, ?_⟩
  rintro rfl
  rw [sprpCounted_zero]

end Sys2Proof.Machine

/-! ### Errors: their record and what they leave alone (R91, R110) -/

namespace Sys2Proof.Machine

/-- The three ways a step can make an error of the host program, each with the record R110 asks for. -/
inductive MakesError (s : State) : HostFault → State → Prop
  | overrun (rest : List Input) (w : Word) (hi : s.inputs = .host (.write 0x18 8 w) :: rest) (hb : s.busy = true) :
      MakesError s .overrun (overrunWrite (respond .written { s with inputs := rest }))
  | errorCompletion (rest : List Input) (w : Word) (c : ErrorCause) (hi : s.inputs = .host (.write 0x18 8 w) :: rest)
      (hb : s.busy = false) :
      MakesError s (.errorCompletion c) (complete (.error c) (respond .written { s with inputs := rest }))
  | busError (rest : List Input) (off : Int) (n : Nat)
      (hi : s.inputs = .host (.read off n) :: rest ∨ ∃ v, s.inputs = .host (.write off n v) :: rest)
      (hn : slotAt off n = none) : MakesError s (.busError off) (Machine.busError off { s with inputs := rest })

theorem MakesError.record {s t : State} {f : HostFault} (h : MakesError s f t) : t.hostFaults = f :: s.hostFaults := by
  cases h <;> rfl

/-- Nothing is recorded, and no error newly shows in CAUSE, in OVERRUN or in the bus answer. -/
structure RaisesNoError (s t : State) : Prop where
  record : t.hostFaults = s.hostFaults
  cause : t.done = true → t.cause ≠ 0 → s.done = true ∧ t.cause = s.cause
  overrun : t.overrun = true → s.overrun = true
  response : ∀ off, t.response = .busError off → s.response = .busError off

theorem overrun_of_overrunAfterWrite {v : Word} {o : Bool} (h : overrunAfterWrite v o = true) : o = true := by
  cases hv : v.getLsbD 8 with
  | false => rwa [overrunAfterWrite_of_clear hv] at h
  | true => cases (overrunAfterWrite_of_set hv o).symm.trans h

/-- A step makes an error and records it, or it neither records nor raises one. -/
theorem step_error_cases {s t : State} (h : step s = .next t) : RaisesNoError s t ∨ ∃ f, MakesError s f t := by
  cases step_cases h with
  | overrun rest w hi _ hb => exact .inr ⟨_, .overrun rest w hi hb⟩
  | commandError rest w c hi _ hb => exact .inr ⟨_, .errorCompletion rest w c hi hb⟩
  | refusedRead rest off n hi _ hn => exact .inr ⟨_, .busError rest off n (.inl hi) hn⟩
  | refusedWrite rest off n v hi _ hn => exact .inr ⟨_, .busError rest off n (.inr ⟨v, hi⟩) hn⟩
  | completion => exact .inl ⟨rfl, fun _ hc => absurd rfl hc, id, fun _ => id⟩
  | resetAssert => exact .inl ⟨rfl, nofun, nofun, nofun⟩
  | accept => exact .inl ⟨rfl, nofun, id, nofun⟩
  | writeStatus => exact .inl ⟨rfl, fun hd _ => ⟨hd, rfl⟩, overrun_of_overrunAfterWrite, nofun⟩
  | wait | engineIdle | engineWork | resetRelease => exact .inl ⟨rfl, fun hd _ => ⟨hd, rfl⟩, id, fun _ => id⟩
  | read | writeOpa | writeOpb | writeOpm | writeIgnored => exact .inl ⟨rfl, fun hd _ => ⟨hd, rfl⟩, id, nofun⟩

/-- The record a step adds names the error it makes. -/
theorem makesError_of_record {s t : State} {f : HostFault} (h : step s = .next t)
    (hf : t.hostFaults = f :: s.hostFaults) : MakesError s f t := by
  rcases step_error_cases h with hquiet | ⟨g, hg⟩
  · exact absurd (hf.symm.trans hquiet.record) (List.cons_ne_self f s.hostFaults)
  · obtain ⟨rfl, -⟩ := List.cons.inj (hg.record.symm.trans hf)
    exact hg

/-- Settles O36: each of the three errors writes the fields of its own kind only. -/
theorem errorsChangeNoOperandAndNoResult : Obligations.ErrorsChangeNoOperandAndNoResult := by
  intro s t f h hf
  cases makesError_of_record h hf with
  | overrun rest w hi hb => exact ⟨rfl, rfl, rfl, rfl, hb, hb, rfl, rfl, rfl⟩
  | errorCompletion rest w c hi hb => exact ⟨rfl, rfl, rfl, rfl, hb, rfl, rfl, rfl, rfl⟩
  | busError => exact ⟨rfl, rfl, rfl, rfl, rfl, rfl⟩

/-- R37's condition, negated, is when an access reaches no place of the window. -/
theorem slotAt_eq_none_iff (off : Int) (n : Nat) :
    slotAt off n = none ↔ ¬(n = 8 ∧ off % 8 = 0 ∧ 0 ≤ off ∧ off ≤ 0x38) := by
  rw [← admitted_iff]
  refine ⟨fun hn ha => ?_, slotAt_eq_none⟩
  obtain ⟨r, hr⟩ := slotAt_of_admitted ha
  cases hn.symm.trans hr

/-- A host access that a step carries out came with reset released (R111). -/
theorem inReset_of_step_host {s t : State} {a : Access} {rest : List Input} (hi : s.inputs = .host a :: rest)
    (h : step s = .next t) : s.inReset = false :=
  eq_false_of_ne_true fun hr => by cases (step_host_inReset hi hr).symm.trans h

theorem step_keeps_record {s t : State} (h : step s = .next t) : s.hostFaults <:+ t.hostFaults := by
  rcases step_error_cases h with hquiet | ⟨f, hf⟩
  · rw [hquiet.record]
  · rw [hf.record]
    exact List.suffix_cons f s.hostFaults

/-- A CMD write while busy makes an overrun (R61). -/
theorem makesError_overrun {s t : State} {w : Word} {rest : List Input} (h : step s = .next t)
    (hi : s.inputs = .host (.write 0x18 8 w) :: rest) (hb : s.busy = true) : MakesError s .overrun t := by
  cases (step_commandWrite_busy (inReset_of_step_host hi h) hb hi).symm.trans h
  exact .overrun rest w hi hb

/-- A CMD write while idle that accepts no command makes an error completion (R62). -/
theorem makesError_errorCompletion {s t : State} {w : Word} {rest : List Input} (h : step s = .next t)
    (hi : s.inputs = .host (.write 0x18 8 w) :: rest) (hb : s.busy = false) (ht : t.busy = false) :
    ∃ c : ErrorCause, t.cause = c.code ∧ MakesError s (.errorCompletion c) t := by
  have hwrite := (step_write (r := .cmd) hi (inReset_of_step_host hi h)).symm.trans h
  rcases commandWrite_cases w (respond .written { s with inputs := rest }) with
    ⟨hbusy, -⟩ | ⟨-, c, -, hw⟩ | ⟨-, i, -, -, hw⟩
  · cases hb.symm.trans hbusy
  · cases hw.symm.trans hwrite
    exact ⟨c, rfl, .errorCompletion rest w c hi hb⟩
  · cases hw.symm.trans hwrite
    cases ht

/-- An access that R37 does not admit makes a bus error. -/
theorem makesError_busError {s t : State} {off : Int} {n : Nat} {rest : List Input} (h : step s = .next t)
    (hi : s.inputs = .host (.read off n) :: rest ∨ ∃ v, s.inputs = .host (.write off n v) :: rest)
    (hn : slotAt off n = none) : MakesError s (.busError off) t := by
  have hr : s.inReset = false := by
    rcases hi with hi | ⟨v, hi⟩ <;> exact inReset_of_step_host hi h
  cases (step_refused hn hr hi).symm.trans h
  exact .busError rest off n hi hn

/-- Settles O37: a step makes one of the three errors or raises none, each of the three events makes its own error, and a
run keeps what its steps keep. -/
theorem errorsAreRecordedAndKept : Obligations.ErrorsAreRecordedAndKept := by
  refine ⟨fun s t h => ?_, fun k s t => ?_, fun s t h => ⟨?_, ?_, ?_⟩, fun s t h hne => ?_, fun s t h heq => ?_⟩
  · exact (step_error_cases h).imp RaisesNoError.record fun ⟨f, hf⟩ => ⟨f, hf.record⟩
  · exact runN_keeps (P := fun u => s.hostFaults <:+ u.hostFaults)
      (fun _ _ hkept hstep => hkept.trans (step_keeps_record hstep)) k s t List.suffix_rfl
  · exact fun w rest hi hb => (makesError_overrun h hi hb).record
  · intro w rest hi hb ht
    obtain ⟨c, hc, hmade⟩ := makesError_errorCompletion h hi hb ht
    exact ⟨c, hc, hmade.record⟩
  · exact fun off n rest hi hn => (makesError_busError h hi ((slotAt_eq_none_iff off n).2 hn)).record
  · obtain ⟨f, hf⟩ := (step_error_cases h).resolve_left fun hquiet => hne hquiet.record
    cases hf with
    | overrun rest w hi hb => exact .inl ⟨w, rest, hi, .inl hb⟩
    | errorCompletion rest w c hi => exact .inl ⟨w, rest, hi, .inr rfl⟩
    | busError rest off n hi hn => exact .inr ⟨off, n, rest, hi, (slotAt_eq_none_iff off n).1 hn⟩
  · obtain ⟨-, hcause, hoverrun, hresponse⟩ := (step_error_cases h).resolve_right fun ⟨f, hf⟩ =>
      List.cons_ne_self f s.hostFaults (hf.record.symm.trans heq)
    exact ⟨hcause, hoverrun, hresponse⟩

end Sys2Proof.Machine

/-! ### Reset and hazards (R111 to R115) -/

namespace Sys2Proof.Machine

/-- Settles O17: only an accept makes the CORE busy, and the port takes no CMD write while reset is asserted. -/
theorem everyStepKeepsResetIdle : Obligations.EveryStepKeepsResetIdle :=
  fun _ _ => step_keeps_resetIsIdle

theorem assertReset_statusWord (s : State) : statusWord (assertReset s) = 0 := by
  rw [← BitVec.toNat_inj, statusWord_toNat]
  simp

/-- Settles O38: the assertion leaves the CORE idle with its registers at 0, and an idle CORE keeps its result until a
command is written. -/
theorem resetAbandonsTheCommand : Obligations.ResetAbandonsTheCommand := by
  intro s rest hi
  refine ⟨assertReset { s with inputs := rest }, step_resetAssert hi, rfl, rfl, rfl, rfl, assertReset_statusWord _, rfl,
    rfl, rfl, rfl, hostAccess_inReset (assertReset_inReset _), fun rest' hrest => ?_, fun k u hquiet hrun => ?_⟩
  · exact step_resetRelease (s := assertReset { s with inputs := rest }) hrest
  · obtain ⟨hbusy, hresult, -, hdone⟩ := runN_staysIdle k (assertReset { s with inputs := rest }) u rfl hquiet hrun
    exact ⟨hresult, hdone, hbusy⟩

/-- The state with one operand register written; any other place leaves all three as they are (R41). -/
def State.withOperand (r : Slot) (v : Word) (s : State) : State :=
  { s with
    opa := if r = .opa then v else s.opa
    opb := if r = .opb then v else s.opb
    opm := if r = .opm then v else s.opm }

theorem hostWrite_operand {r : Slot} (hop : r = .opa ∨ r = .opb ∨ r = .opm) (v : Word) (s : State) :
    hostWrite r v s = .next (s.withOperand r v) := by
  rcases hop with rfl | rfl | rfl <;> rfl

theorem readSlot_withOperand {r : Slot} (hop : r = .opa ∨ r = .opb ∨ r = .opm) (v : Word) (s : State) :
    readSlot r (s.withOperand r v) = v := by
  rcases hop with rfl | rfl | rfl <;> rfl

/-- A host read that follows a step answers what the place holds after that step. -/
theorem runN_two_read {s t : State} {r : Slot} {rest : List Input} (hstep : step s = .next t) (hr : t.inReset = false)
    (hi : t.inputs = .host (.read r.offset 8) :: rest) :
    ∃ u, runN 2 s = .next u ∧ u.response = .data (readSlot r t) :=
  ⟨_, (runN_succ_of_step hstep 1).trans (runN_succ_of_step (step_read hi hr) 0), rfl⟩

/-- Settles O30: the write has taken effect in the state from which the next access is carried out. -/
theorem writeIsSeenByTheNextAccess : Obligations.WriteIsSeenByTheNextAccess := by
  intro s rest v r hop hr hi
  have hstep := (step_write hi hr).trans (hostWrite_operand hop v _)
  have hread := readSlot_withOperand hop v (respond .written { s with inputs := rest })
  refine ⟨_, hstep, rfl, hread, fun rest' hrest => ?_, fun w => rfl⟩
  rw [← hread]
  exact runN_two_read hstep hr hrest

/-- A command written straight after reset meets operands that are 0 (R114). -/
theorem step_command_after_reset {i : Instr} {e : ErrorCause} (hc : operandCheck i 0 0 = some e) :
    step (State.reset.withFetchWord 64 (encode i).toNat) =
      .next (complete (.error e) (respond .written State.reset)) :=
  (stepRunsTheDecodedCommand.2 State.reset i).trans (exec_error i (s := respond .written State.reset) rfl hc)

/-- Settles O40: modulus 0 fails the operand check of MULMOD and POWMOD, and candidate 0 that of SPRP. -/
theorem commandsRightAfterReset : Obligations.CommandsRightAfterReset :=
  ⟨⟨_, step_command_after_reset (i := .mulmod) (modulusCheck_some rfl), rfl, rfl⟩,
    ⟨_, step_command_after_reset (i := .powmod) (modulusCheck_some rfl), rfl, rfl⟩,
    ⟨_, step_command_after_reset (i := .sprp) (sprpCheck_some (by decide)), rfl, rfl⟩⟩

end Sys2Proof.Machine
